-- ==== Sys2Proof/Word.lean ====
section
/-! DEFINITION. The words of the machine: characters and bytes (00 R8), binary frames (R49), the 40-bit
operand and RESULT words (R51) and the 48-bit command word (R60). -/

namespace Sys2Proof

/-- A character code, or a byte of a byte sequence: 8 bits (00 R8). -/
abbrev Byte := BitVec 8

/-- A binary frame: 32 bits (00 R5, R11). -/
abbrev Frame := BitVec 32

/-- The operand of a command, and RESULT: 40 bits (00 R5). -/
abbrev Word40 := BitVec 40

/-- A command word W: 48 bits (30 R60). -/
abbrev Word48 := BitVec 48

end Sys2Proof
end

