-- ==== Sys2Proof/Config.lean ====
section
/-! DEFINITION. What is fixed for the machine (00 R5) and what the spec leaves open (00 R6, 20 R55). An
open parameter is a constant with no body: nothing can evaluate it, so a claim holds for its every value. -/

namespace Sys2Proof

/-- RADIX (00 R5). -/
abbrev Config.radix : Nat := 85
/-- ALPHA_N, the entries of the alphabet ROM (00 R5). -/
abbrev Config.alphaN : Nat := 85
/-- RLUT_N, the entries of the reverse-lookup ROM (00 R5). -/
abbrev Config.rlutN : Nat := 128
/-- FRAME_BYTES (00 R5). -/
abbrev Config.frameBytes : Nat := 4
/-- GROUP_LEN, the characters of a group (00 R5). -/
abbrev Config.groupLen : Nat := 5
/-- MAX_PAD, the largest padding count (00 R5). -/
abbrev Config.maxPad : Nat := 3

/-- SENTINEL(i), the digit field of the invalid RLUT entry i (00 R6, 20 R45). Open: one 8-bit value for
each index, not assumed equal, zero or above 84 (notes/assumptions/2). -/
opaque Config.sentinel : BitVec 7 → Byte

/-- STRICT_DECODE, whether DECODE rejects groups that hold non-alphabet characters (00 R6, 45 R154).
Open; its reference value is `false` (notes/assumptions/3). -/
opaque Config.strictDecode : Bool

/-- How many cycles LATENCY exceeds 1 by: the form in which `Config.latency` is at least 1. -/
opaque Config.latencyExtra : Nat

/-- LATENCY in cycles, at least 1 (00 R6, 70 R196). No rule and no definition reads it
(notes/assumptions/4). -/
def Config.latency : Nat := Config.latencyExtra + 1

/-- What a platform places in its address space (20 R55). -/
inductive PortRegister where
  | commandPort
  | result
  | status
  deriving DecidableEq, Repr

/-- PORT_MAP, where the platform places the command port, RESULT and STATUS (20 R55). Open; no rule and
no definition reads it (notes/assumptions/4). -/
opaque Config.portMap : PortRegister → Nat

end Sys2Proof
end

