-- ==== Sys2Proof/Machine/Rom.lean ====
section
/-! DEFINITION. The contents of the two ROMs, as the tables of 20 R41 and R44 print them. -/

namespace Sys2Proof.Machine

/-- The codes of the alphabet, entry 0 first, as the table of 20 R41 lists them (ASCII codes:
notes/assumptions/10). -/
def alphaCodes : List Byte :=
  -- 0..9
  [0x30, 0x31, 0x32, 0x33, 0x34, 0x35, 0x36, 0x37, 0x38, 0x39] ++
  -- a..z
  [0x61, 0x62, 0x63, 0x64, 0x65, 0x66, 0x67, 0x68, 0x69, 0x6A, 0x6B, 0x6C, 0x6D] ++
  [0x6E, 0x6F, 0x70, 0x71, 0x72, 0x73, 0x74, 0x75, 0x76, 0x77, 0x78, 0x79, 0x7A] ++
  -- A..Z
  [0x41, 0x42, 0x43, 0x44, 0x45, 0x46, 0x47, 0x48, 0x49, 0x4A, 0x4B, 0x4C, 0x4D] ++
  [0x4E, 0x4F, 0x50, 0x51, 0x52, 0x53, 0x54, 0x55, 0x56, 0x57, 0x58, 0x59, 0x5A] ++
  -- . - : + = ^ ! / * ? & <
  [0x2E, 0x2D, 0x3A, 0x2B, 0x3D, 0x5E, 0x21, 0x2F, 0x2A, 0x3F, 0x26, 0x3C] ++
  -- > ( ) [ ] (open brace) (close brace) @ % $ #
  [0x3E, 0x28, 0x29, 0x5B, 0x5D, 0x7B, 0x7D, 0x40, 0x25, 0x24, 0x23]

/-- The alphabet ROM: 85 entries of 8 bits (20 R40, R41). -/
def alphaRom : Vector Byte 85 := ⟨alphaCodes.toArray, by rfl⟩

/-- An entry of the reverse-lookup ROM: 9 bits (20 R40). -/
structure RlutEntry where
  valid : Bool
  digit : Byte
  deriving DecidableEq, Repr

/-- The last two columns of the table of 20 R44, index 0 first: the digit of a valid entry, `none` for an
invalid one. -/
def rlutDigits : List (Option Byte) :=
  -- 0..15
  [none, some 68, none, some 84, some 83, some 82, some 72, none,
   some 75, some 76, some 70, some 65, none, some 63, some 62, some 69] ++
  -- 16..31
  [some 0, some 1, some 2, some 3, some 4, some 5, some 6, some 7,
   some 8, some 9, some 64, none, some 73, some 66, some 74, some 71] ++
  -- 32..47
  [some 81, some 36, some 37, some 38, some 39, some 40, some 41, some 42,
   some 43, some 44, some 45, some 46, some 47, some 48, some 49, some 50] ++
  -- 48..63
  [some 51, some 52, some 53, some 54, some 55, some 56, some 57, some 58,
   some 59, some 60, some 61, some 77, none, some 78, some 67, none] ++
  -- 64..79
  [none, some 10, some 11, some 12, some 13, some 14, some 15, some 16,
   some 17, some 18, some 19, some 20, some 21, some 22, some 23, some 24] ++
  -- 80..95
  [some 25, some 26, some 27, some 28, some 29, some 30, some 31, some 32,
   some 33, some 34, some 35, some 79, none, some 80, none, none] ++
  -- 96..127: control codes
  List.replicate 32 none

/-- The entry at index `i` of a row of the table: a valid entry holds its digit, an invalid one holds
SENTINEL(i) (20 R44, R45). -/
def rlutEntry (i : Nat) : Option Byte → RlutEntry
  | some d => ⟨true, d⟩
  | none => ⟨false, Config.sentinel (BitVec.ofNat 7 i)⟩

/-- The entries of the rows, the first of which has index `i`. -/
def rlutEntriesFrom (i : Nat) : List (Option Byte) → List RlutEntry
  | [] => []
  | row :: rows => rlutEntry i row :: rlutEntriesFrom (i + 1) rows

/-- The reverse-lookup ROM: 128 entries (20 R44, R45). -/
def rlutRom : Vector RlutEntry 128 := ⟨(rlutEntriesFrom 0 rlutDigits).toArray, by rfl⟩

/-- The RLUT index of a character, `((c - 32) mod 256) & 0x7F` as a 7-bit value (20 R43). -/
def rlutIndex (c : Byte) : BitVec 7 := ((c - 32#8) &&& 0x7F#8).setWidth 7

/-- ALPHA[d]: the alphabet ROM's entry of a digit (00 R9). -/
def alphaAt (alpha : Vector Byte 85) (d : Fin 85) : Byte := alpha.get d

/-- RLUT[i]: the reverse-lookup ROM's entry of an index (00 R9). -/
def rlutAt (rlut : Vector RlutEntry 128) (i : BitVec 7) : RlutEntry := rlut.get i.toFin

/-- Alphabet membership of a character (20 R48): bit 7 is 0 and the ROM entry is valid. -/
def isAlpha (rlut : Vector RlutEntry 128) (c : Byte) : Bool :=
  !c.getLsbD 7 && (rlutAt rlut (rlutIndex c)).valid

end Sys2Proof.Machine
end

