-- ==== Sys2Proof/Machine/State.lean ====
section
/-! DEFINITION. What the machine holds. The first four fields of `State` are the architectural state of the
block (10 R20); the other three are the model's own and hold the world outside the block as plain data: what
hosts are about to do, what they have received, and the host procedures called (notes/assumptions/1, 8). -/

namespace Sys2Proof.Machine

/-- Who issues: hosts are told apart by a number (45 R140, 60 R183). -/
abbrev HostId := Nat

/-- The error codes of the host sequencer other than E_NONE (60 R172). -/
inductive SeqError where
  /-- E_LEN4, by ENCODE (45 R144). -/
  | eLen4
  /-- E_LEN5, by DECODE (45 R150). -/
  | eLen5
  /-- E_PADCHR, by DECODE (45 R151). -/
  | ePadChr
  /-- E_PADUNDER, by DECODE (45 R152). -/
  | ePadUnder
  /-- E_BADCHR, by DECODE with STRICT_DECODE (45 R154). -/
  | eBadChr
  deriving DecidableEq, Repr

/-- What a host procedure returns: a sequence of bytes or characters, or an error and no output
(45 R142, R149, R157). -/
inductive SeqResult where
  | value (out : List Byte)
  | seqError (e : SeqError)
  deriving DecidableEq, Repr

/-- A call of a host procedure (45 R142, R149). -/
inductive Call where
  | encode (data : List Byte) (autoPad : Bool)
  | decode (text : List Byte)
  deriving DecidableEq, Repr

/-- How far a call has come: its padding count, the command words it has still to issue, its output so far
and its `bad` flag (p, out and bad of 45 R142, R149), or what it returned. -/
inductive Phase where
  | running (pad : Nat) (todo : List Word48) (out : List Byte) (bad : Bool)
  | returned (r : SeqResult)
  deriving DecidableEq, Repr

/-- A host procedure that a host has called. -/
structure Proc where
  host : HostId
  call : Call
  phase : Phase
  deriving DecidableEq, Repr

/-- What the outside world can do (45 R140), in the order it reaches the block. -/
inductive HostAction where
  /-- A host issues a command word: issue and acknowledge are this one step (70 R195). -/
  | issue (h : HostId) (w : Word48)
  /-- A host reads RESULT. -/
  | readResult (h : HostId)
  /-- A host reads STATUS. -/
  | readStatus (h : HostId)
  /-- Reset, with no command in flight (70 R190). -/
  | reset
  /-- Reset while the command `w` of host `h` is in flight (70 R191). -/
  | resetInFlight (h : HostId) (w : Word48)
  /-- A host calls ENCODE or DECODE (45 R142, R149). -/
  | call (h : HostId) (c : Call)
  /-- The host procedure number `k` issues its next command (45 R142, R149). -/
  | advance (k : Nat)
  deriving DecidableEq, Repr

/-- What a host receives (45 R140). -/
inductive Delivery where
  /-- The response of a command: the RESULT and STATUS it left, to its issuer. -/
  | response (h : HostId) (result : Word40) (status : Byte)
  /-- The value of a read of RESULT. -/
  | resultRead (h : HostId) (v : Word40)
  /-- The value of a read of STATUS. -/
  | statusRead (h : HostId) (v : Byte)
  deriving DecidableEq, Repr

/-- Why a step can stop: never. The block has no trap, halt or hang (60 R170), every command completes, and
a host procedure's error is a value it returns (60 R176). -/
inductive Fault where
  deriving DecidableEq, Repr

/-- Why a step can have no meaning. -/
inductive Refusal where
  /-- Raised by an arm of `exec` whose instruction has no meaning yet: no arm of this model. Safe: the
  machine stops. -/
  | notModelled (mnemonic : String)
  deriving DecidableEq, Repr

/-- The machine. -/
structure State where
  /-- ALPHA ROM, 85 entries of 8 bits (10 R20). -/
  alpha : Vector Byte 85
  /-- RLUT ROM, 128 entries of a valid bit and an 8-bit digit (10 R20). -/
  rlut : Vector RlutEntry 128
  /-- RESULT (10 R24). -/
  result : Word40
  /-- STATUS (10 R25). -/
  status : Byte
  /-- The model's own: the host actions still to reach the block, oldest first. -/
  port : List HostAction
  /-- The model's own: what hosts have received, newest first. -/
  delivered : List Delivery
  /-- The model's own: the host procedures called, oldest first. -/
  procs : List Proc
  deriving DecidableEq, Repr

/-- The machine right after reset (10 R30), before any host has done anything. -/
def State.reset : State where
  alpha := alphaRom
  rlut := rlutRom
  result := 0x0000000000#40
  status := 0x00#8
  port := []
  delivered := []
  procs := []

end Sys2Proof.Machine
end

