-- ==== Sys2Proof/Machine/Flags.lean ====
section
/-! DEFINITION. The fields of STATUS (10 R25): bit 0 VALID, 1 ILLEGAL, 2 INVCHR, 3 OVF, 4 RANGE, 7:5 read 0
(10 R27). -/

namespace Sys2Proof.Machine

/-- The conditions a command can report (60 R173). A field a command does not set is 0 (10 R26). -/
structure Conditions where
  illegal : Bool := false
  invchr : Bool := false
  ovf : Bool := false
  range : Bool := false
  deriving DecidableEq, Repr

/-- The STATUS a completed command writes: VALID, its conditions, and zeros in bits 7:5 (10 R25 to R27). -/
def statusWord (c : Conditions) : Byte :=
  0#3 ++ BitVec.ofBool c.range ++ BitVec.ofBool c.ovf ++ BitVec.ofBool c.invchr ++
    BitVec.ofBool c.illegal ++ 1#1

/-- STATUS.VALID. -/
def statusValid (st : Byte) : Bool := st.getLsbD 0
/-- STATUS.ILLEGAL. -/
def statusIllegal (st : Byte) : Bool := st.getLsbD 1
/-- STATUS.INVCHR. -/
def statusInvchr (st : Byte) : Bool := st.getLsbD 2
/-- STATUS.OVF. -/
def statusOvf (st : Byte) : Bool := st.getLsbD 3
/-- STATUS.RANGE. -/
def statusRange (st : Byte) : Bool := st.getLsbD 4

/-- INVCHR of a group or a character: some character is not an alphabet code (60 R173, 20 R48). -/
def invchrOf (rlut : Vector RlutEntry 128) (cs : List Byte) : Bool := cs.any (fun c => !isAlpha rlut c)

/-- OVF: the exact value does not fit in 32 bits (41 R102). -/
def ovfOf (val : Nat) : Bool := 2 ^ 32 ≤ val

end Sys2Proof.Machine
end

