-- ==== Sys2Proof/Machine/Operands.lean ====
section
/-! DEFINITION. How groups, frames and ROM entries lie in 40-bit words (20 R49 to R51, 30 R66), and the
base-85 digits of a frame and value of a group (40 R80, 41 R100). -/

namespace Sys2Proof.Machine

/-- A group in a 40-bit word, character 0 in bits 39:32 (20 R51). -/
def packGroup (c0 c1 c2 c3 c4 : Byte) : Word40 := c0 ++ c1 ++ c2 ++ c3 ++ c4

/-- Character k of the group in a 40-bit word: bits [39-8k : 32-8k] (20 R51). -/
def charAt (w : Word40) (k : Fin 5) : Byte := w.extractLsb' (32 - 8 * k.val) 8

/-- The five characters of a 40-bit word, in string order. -/
def groupChars (w : Word40) : List Byte := [charAt w 0, charAt w 1, charAt w 2, charAt w 3, charAt w 4]

/-- The big-endian frame of four bytes (20 R49). -/
def frameOfBytes (b0 b1 b2 b3 : Byte) : Frame := b0 ++ b1 ++ b2 ++ b3

/-- The four bytes of a frame, in byte order (20 R49). -/
def bytesOfFrame (v : Frame) : List Byte :=
  [v.extractLsb' 24 8, v.extractLsb' 16 8, v.extractLsb' 8 8, v.extractLsb' 0 8]

/-- `zext_40` of a frame: bits 31:0, zeros above (00 R7, 30 R66). -/
def word40OfFrame (v : Frame) : Word40 := v.setWidth 40

/-- The frame in a 40-bit word: bits 31:0 (20 R51). -/
def frameOfWord40 (w : Word40) : Frame := w.extractLsb' 0 32

/-- `zext_40` of an alphabet code (30 R66). -/
def word40OfCode (c : Byte) : Word40 := c.setWidth 40

/-- `zext_40` of the valid bit and the digit of an RLUT entry: valid in bit 8, digit in bits 7:0 (42 R122). -/
def word40OfEntry (e : RlutEntry) : Word40 := (BitVec.ofBool e.valid ++ e.digit).setWidth 40

/-- The digit of character position k, `(v div 85^(4-k)) mod 85` (40 R80). -/
def encDigit (v : Frame) (k : Fin 5) : Fin 85 :=
  ⟨v.toNat / 85 ^ (4 - k.val) % 85, Nat.mod_lt _ (by decide)⟩

/-- The exact base-85 value of five digit fields, most significant first (41 R100). -/
def digitsValue (d0 d1 d2 d3 d4 : Byte) : Nat :=
  d0.toNat * 85 ^ 4 + d1.toNat * 85 ^ 3 + d2.toNat * 85 ^ 2 + d3.toNat * 85 + d4.toNat

end Sys2Proof.Machine
end

