-- ==== Sys2Proof/Machine/Ops.lean ====
section
/-! DEFINITION. The operations the meanings share: completing a command, the reserved command, reset, and
handing a value to a host. -/

namespace Sys2Proof.Machine

/-- What one `exec` answers. -/
abbrev StepResult := Host.Outcome State Fault Refusal

/-- A command completes: RESULT and STATUS are written together, and nothing else is (00 R10, 10 R24, R26,
20 R53, R54). -/
def State.complete (s : State) (result : Word40) (c : Conditions) : State :=
  { s with result := result, status := statusWord c }

/-- A reserved command: the block's only exceptional condition. It saves nothing, changes no mode and
transfers no control: RESULT stays and STATUS becomes VALID and ILLEGAL (60 R171, R176). There is no return
from it (60 R179). -/
def State.reservedCommand (s : State) : State := s.complete s.result { illegal := true }

/-- Reset: RESULT and STATUS take their reset values; the ROMs and the hosts are not touched (70 R190). -/
def State.resetRegisters (s : State) : State := { s with result := 0#40, status := 0#8 }

/-- Something is handed to a host (45 R140). -/
def State.deliver (s : State) (d : Delivery) : State := { s with delivered := d :: s.delivered }

/-- The response of the command just completed goes to its issuer (45 R140). -/
def State.respond (s : State) (h : HostId) : State := s.deliver (.response h s.result s.status)

/-- Continue with the next state, or stop as the first part stopped. -/
def andThen (o : StepResult) (f : State → StepResult) : StepResult :=
  match o with
  | .next s => f s
  | .fault r => .fault r
  | .refused r => .refused r

end Sys2Proof.Machine
end

