-- ==== Sys2Proof/Machine/FrameDecoder.lean ====
section
/-! DEFINITION. The frame decoder: DEC32 (41_frame_decode.md). -/

namespace Sys2Proof.Machine

/-- The digit field the ROM gives for a character: 0..84 when the entry is valid, else SENTINEL (41 R100). -/
def charDigit (rlut : Vector RlutEntry 128) (c : Byte) : Byte := (rlutAt rlut (rlutIndex c)).digit

/-- The exact value of a group (41 R100). -/
def groupValue (rlut : Vector RlutEntry 128) (c0 c1 c2 c3 c4 : Byte) : Nat :=
  digitsValue (charDigit rlut c0) (charDigit rlut c1) (charDigit rlut c2) (charDigit rlut c3)
    (charDigit rlut c4)

/-- The conditions of a group: INVCHR and OVF, independent of each other (41 R100, R102, R103). -/
def groupConditions (rlut : Vector RlutEntry 128) (c0 c1 c2 c3 c4 : Byte) : Conditions :=
  { invchr := invchrOf rlut [c0, c1, c2, c3, c4], ovf := ovfOf (groupValue rlut c0 c1 c2 c3 c4) }

/-- DEC32 (41 R100): RESULT is the value mod 2^32, zero-extended, whatever the conditions are (41 R101). -/
def execDec32 (c0 c1 c2 c3 c4 : Byte) (s : State) : StepResult :=
  .next (s.complete (word40OfFrame (BitVec.ofNat 32 (groupValue s.rlut c0 c1 c2 c3 c4)))
    (groupConditions s.rlut c0 c1 c2 c3 c4))

/-- The source's loop `v = v*85 + digit`, on an accumulator of `width` bits that wraps at every step
(41 R101). -/
def wrappingLoop (width : Nat) (digits : List Byte) : Nat :=
  digits.foldl (fun v d => (v * 85 + d.toNat) % 2 ^ width) 0

end Sys2Proof.Machine
end

