-- ==== Sys2Proof/Machine/FrameEncoder.lean ====
section
/-! DEFINITION. The frame encoder: ENC32 (40_frame_encode.md). -/

namespace Sys2Proof.Machine

/-- The group of a frame: character k is the alphabet code of digit k (40 R80). -/
def encFrame (alpha : Vector Byte 85) (v : Frame) : Word40 :=
  packGroup (alphaAt alpha (encDigit v 0)) (alphaAt alpha (encDigit v 1)) (alphaAt alpha (encDigit v 2))
    (alphaAt alpha (encDigit v 3)) (alphaAt alpha (encDigit v 4))

/-- ENC32 (40 R80). The ignored byte is not read (30 R65). -/
def execEnc32 (_ignored : Byte) (frame : Frame) (s : State) : StepResult :=
  .next (s.complete (encFrame s.alpha frame) {})

/-- The source's second form of the digits (40 R81): `n` rounds with a running remainder and divisor. -/
def divisorDigits : Nat → Nat → Nat → List Nat
  | 0, _, _ => []
  | n + 1, r, divisor =>
    let d := r / divisor % 85
    d :: divisorDigits n (r - d * divisor) (divisor / 85)

end Sys2Proof.Machine
end

