-- ==== Sys2Proof/Machine/RomAccess.lean ====
section
/-! DEFINITION. The ROM reads: ALPHA_RD and RLUT_RD (42_rom_access.md). -/

namespace Sys2Proof.Machine

/-- ALPHA_RD (42 R120): the alphabet code of IDX, or 0 with RANGE when IDX is 85 or more. The ignored bits
are not read (30 R65). -/
def execAlphaRd (_ignored : BitVec 32) (idx : Byte) (s : State) : StepResult :=
  if h : idx.toNat < 85 then .next (s.complete (word40OfCode (alphaAt s.alpha ⟨idx.toNat, h⟩)) {})
  else .next (s.complete 0#40 { range := true })

/-- RLUT_RD (42 R122): the valid bit and the digit of the entry CH reaches; INVCHR when CH is not an alphabet
code. The ignored bits are not read (30 R65). -/
def execRlutRd (_ignored : BitVec 32) (ch : Byte) (s : State) : StepResult :=
  .next (s.complete (word40OfEntry (rlutAt s.rlut (rlutIndex ch))) { invchr := invchrOf s.rlut [ch] })

end Sys2Proof.Machine
end

