-- ==== Sys2Proof/Syntax.lean ====
section
/-! DEFINITION. The commands of the CORE block: one constructor for each row of spec/opcode_table.json,
with the fields of 30 R64. The bits a command ignores are kept, so that a term says all 40 operand bits. -/

namespace Sys2Proof

/-- A legal command (30 R62, R64). A reserved word is no term of this type: it has no row in the opcode
table, and `step` runs it as ILLEGAL (60 R171). -/
inductive Instr where
  /-- ENC32: bits 39:32 (ignored) and FRAME, bits 31:0 (40 R80). -/
  | enc32 (ignored : Byte) (frame : Frame)
  /-- DEC32: the group's characters C0..C4 in string order, C0 in bits 39:32 (41 R100). -/
  | dec32 (c0 c1 c2 c3 c4 : Byte)
  /-- ALPHA_RD: bits 39:8 (ignored) and IDX, bits 7:0 (42 R120). -/
  | alphaRd (ignored : BitVec 32) (idx : Byte)
  /-- RLUT_RD: bits 39:8 (ignored) and CH, bits 7:0 (42 R122). -/
  | rlutRd (ignored : BitVec 32) (ch : Byte)
  deriving DecidableEq, Repr

end Sys2Proof
end

