-- ==== Sys2Proof/Machine/Dispatch.lean ====
section
/-! DEFINITION. Every command's meaning, one arm per constructor of Instr. -/

namespace Sys2Proof.Machine

def exec (i : Instr) (s : State) : Host.Outcome State Fault Refusal :=
  match i with
  | .enc32 ignored frame => Sys2Proof.Machine.execEnc32 ignored frame s
  | .dec32 c0 c1 c2 c3 c4 => Sys2Proof.Machine.execDec32 c0 c1 c2 c3 c4 s
  | .alphaRd ignored idx => Sys2Proof.Machine.execAlphaRd ignored idx s
  | .rlutRd ignored ch => Sys2Proof.Machine.execRlutRd ignored ch s

end Sys2Proof.Machine
end

