-- ==== Sys2Proof/Decode.lean ====
section
/-! DEFINITION. From a 48-bit command word to a command or a rejection by name (30 R60 to R68), and back. -/

namespace Sys2Proof

/-! ### Fields (30 R60, R61) -/

/-- RSV = W[47:44]. -/
def rsv (w : Word48) : BitVec 4 := w.extractLsb' 44 4
/-- OP = W[43:40]. -/
def op (w : Word48) : BitVec 4 := w.extractLsb' 40 4
/-- CMD = W[47:40]. -/
def cmd (w : Word48) : Byte := w.extractLsb' 40 8
/-- OPERAND = W[39:0]. -/
def operand (w : Word48) : Word40 := w.extractLsb' 0 40

/-- Why a word is reserved (30 R67). Both run as ILLEGAL (60 R171). -/
inductive Reserved where
  /-- RSV is not 0000 (30 R60). -/
  | rsvNotZero (v : BitVec 4)
  /-- RSV is 0000 and OP is one of 0x0, 0x5..0xF (30 R62). -/
  | opReserved (v : BitVec 4)
  deriving DecidableEq, Repr

/-- What the decoder answers: a command, or the name of what is reserved. -/
inductive Decoded where
  | command (i : Instr)
  | reserved (why : Reserved)
  deriving DecidableEq, Repr

/-- The decoder, total on every word (30 R62, R63, R64). -/
def decode (w : Word48) : Decoded :=
  if rsv w ≠ 0#4 then .reserved (.rsvNotZero (rsv w))
  else if op w = 0x1#4 then .command (.enc32 (w.extractLsb' 32 8) (w.extractLsb' 0 32))
  else if op w = 0x2#4 then
    .command (.dec32 (w.extractLsb' 32 8) (w.extractLsb' 24 8) (w.extractLsb' 16 8)
      (w.extractLsb' 8 8) (w.extractLsb' 0 8))
  else if op w = 0x3#4 then .command (.alphaRd (w.extractLsb' 8 32) (w.extractLsb' 0 8))
  else if op w = 0x4#4 then .command (.rlutRd (w.extractLsb' 8 32) (w.extractLsb' 0 8))
  else .reserved (.opReserved (op w))

/-- The decoder as an option: `none` for a reserved word. -/
def Decoded.instr? : Decoded → Option Instr
  | .command i => some i
  | .reserved _ => none

/-- A row of the opcode map in match and mask form (30 R63). -/
structure OpcodeRow where
  mnemonic : String
  matchWord : Word48
  mask : Word48
  deriving DecidableEq, Repr

/-- The opcode map of 30 R63. -/
def opcodeMap : List OpcodeRow :=
  [⟨"ENC32", 0x010000000000#48, 0xFF0000000000#48⟩,
   ⟨"DEC32", 0x020000000000#48, 0xFF0000000000#48⟩,
   ⟨"ALPHA_RD", 0x030000000000#48, 0xFF0000000000#48⟩,
   ⟨"RLUT_RD", 0x040000000000#48, 0xFF0000000000#48⟩]

/-- The word fits the row: its masked bits are the row's. -/
def OpcodeRow.fits (r : OpcodeRow) (w : Word48) : Bool := (w &&& r.mask) == r.matchWord

/-- A command word is legal when some row of the opcode map fits it (30 R63). -/
def legal (w : Word48) : Bool := opcodeMap.any (·.fits w)

/-! ### The encoder -/

/-- The command word of a command: CMD in bits 47:40 and the operand of 30 R64 below it. -/
def encode : Instr → Word48
  | .enc32 ignored frame => 0x01#8 ++ ignored ++ frame
  | .dec32 c0 c1 c2 c3 c4 => 0x02#8 ++ c0 ++ c1 ++ c2 ++ c3 ++ c4
  | .alphaRd ignored idx => 0x03#8 ++ ignored ++ idx
  | .rlutRd ignored ch => 0x04#8 ++ ignored ++ ch

/-- The host's view of the decoder: the command in the `nbits` bits of `w`, bit 0 the least significant
bit of the command word; the bits above `nbits` are 0. A value that does not fit in 48 bits is no command
word. -/
def decodeTableWord (nbits w : Nat) : Option Instr :=
  if w % 2 ^ nbits < 2 ^ 48 then (decode (BitVec.ofNat 48 (w % 2 ^ nbits))).instr? else none

end Sys2Proof
end

