-- ==== Sys2Proof/Machine/Sequencer.lean ====
section
/-! DEFINITION. The host sequencer's procedures ENCODE and DECODE (45_host_sequencer.md), as functions of their
arguments; Hosts.lean runs them on the block, one command at a time. -/

namespace Sys2Proof.Machine

/-- The code of an error (60 R172). -/
def SeqError.code : SeqError → Nat
  | .eLen4 => 1
  | .eLen5 => 2
  | .ePadChr => 3
  | .ePadUnder => 4
  | .eBadChr => 5

/-- The code of a result: E_NONE, 0, for a value (60 R172). -/
def SeqResult.code : SeqResult → Nat
  | .value _ => 0
  | .seqError e => e.code

/-- What a procedure's checks decide before any command is issued: an error, or the padding count and the
operands of the commands to issue, in order. -/
inductive Plan (α : Type) where
  | fail (e : SeqError)
  | go (pad : Nat) (items : List α)
  deriving DecidableEq, Repr

/-- The same plan with other items. -/
def Plan.map {α β : Type} (f : α → β) : Plan α → Plan β
  | .fail e => .fail e
  | .go pad items => .go pad (items.map f)

/-! ### ENCODE (45 R142) -/

/-- The padding count p of a length (45 R145). -/
def padCount (n : Nat) : Nat := if n % 4 = 0 then 0 else 4 - n % 4

/-- Consecutive 4-byte frames from offset 0, big-endian (45 R146, 20 R49). -/
def framesOf : List Byte → List Frame
  | b0 :: b1 :: b2 :: b3 :: rest => frameOfBytes b0 b1 b2 b3 :: framesOf rest
  | _ => []

/-- The checks and the padding of ENCODE (45 R143 to R146). -/
def encodePlan (data : List Byte) (autoPad : Bool) : Plan Frame :=
  if data.length = 0 then .go 0 []
  else if data.length % 4 ≠ 0 ∧ autoPad = false then .fail .eLen4
  else .go (padCount data.length) (framesOf (data ++ List.replicate (padCount data.length) 0#8))

/-- The padding marker: one character `0x30 + p`, none when p = 0 (45 R147). -/
def marker (p : Nat) : List Byte := if p > 0 then [0x30#8 + BitVec.ofNat 8 p] else []

/-- The characters of frames, in order (45 R146). -/
def encodedChars (frames : List Frame) : List Byte :=
  frames.flatMap (fun v => groupChars (encFrame alphaRom v))

/-- ENCODE (45 R142). -/
def seqEncode (data : List Byte) (autoPad : Bool := false) : SeqResult :=
  match encodePlan data autoPad with
  | .fail e => .seqError e
  | .go p frames => .value (encodedChars frames ++ marker p)

/-! ### DECODE (45 R149) -/

/-- Consecutive 5-character groups from offset 0, as 40-bit operands; a rest of fewer than five characters
is no group (45 R153, 20 R51). -/
def groupsOf : List Byte → List Word40
  | c0 :: c1 :: c2 :: c3 :: c4 :: rest => packGroup c0 c1 c2 c3 c4 :: groupsOf rest
  | _ => []

/-- The padding count of a marker character, none for any other character (45 R151). -/
def markerCount (m : Byte) : Option Nat :=
  if m = 0x31#8 ∨ m = 0x32#8 ∨ m = 0x33#8 then some (m.toNat - 0x30) else none

/-- The checks of DECODE (45 R150 to R152). -/
def decodePlan (text : List Byte) : Plan Word40 :=
  let len := text.length
  if len % 5 = 0 then .go 0 (groupsOf text)
  else if (len - 1) % 5 = 0 then
    match markerCount (text.getD (len - 1) 0#8) with
    | none => .fail .ePadChr
    | some p => if p > 4 * ((len - 1) / 5) then .fail .ePadUnder else .go p (groupsOf text)
  else .fail .eLen5

/-- The frame value DEC32 gives a group, from the ROM (41 R100). -/
def decFrame (g : Word40) : Frame :=
  BitVec.ofNat 32 (groupValue rlutRom (charAt g 0) (charAt g 1) (charAt g 2) (charAt g 3) (charAt g 4))

/-- The bytes of groups, in order (45 R153). -/
def decodedBytes (groups : List Word40) : List Byte := groups.flatMap (fun g => bytesOfFrame (decFrame g))

/-- Some group holds a character that is not an alphabet code (`bad` of 45 R149). -/
def anyInvchr (groups : List Word40) : Bool := groups.any (fun g => invchrOf rlutRom (groupChars g))

/-- DECODE, for either value of STRICT_DECODE (45 R149): the last p bytes are dropped unchecked (45 R155). -/
def seqDecode (strict : Bool) (text : List Byte) : SeqResult :=
  match decodePlan text with
  | .fail e => .seqError e
  | .go p groups =>
    if anyInvchr groups && strict then .seqError .eBadChr
    else .value ((decodedBytes groups).take (4 * groups.length - p))

/-! ### A call, one command at a time -/

/-- The value of a call, as a function of its arguments and the parameters (45 R158). -/
def Call.value (strict : Bool) : Call → SeqResult
  | .encode data autoPad => seqEncode data autoPad
  | .decode text => seqDecode strict text

/-- The ENC32 word of a frame, ignored bits 0 (45 R142, 30 R69). -/
def enc32Word (v : Frame) : Word48 := encode (.enc32 0#8 v)

/-- The DEC32 word of a group (45 R149). -/
def dec32Word (g : Word40) : Word48 :=
  encode (.dec32 (charAt g 0) (charAt g 1) (charAt g 2) (charAt g 3) (charAt g 4))

/-- The command words a call issues, in order, or its error (45 R142, R149). -/
def Call.plan : Call → Plan Word48
  | .encode data autoPad => (encodePlan data autoPad).map enc32Word
  | .decode text => (decodePlan text).map dec32Word

/-- What a call appends to its output for one response (45 R142, R149). -/
def Call.output (c : Call) (result : Word40) : List Byte :=
  match c with
  | .encode _ _ => groupChars result
  | .decode _ => bytesOfFrame (frameOfWord40 result)

/-- Whether a response sets a call's `bad` flag: STATUS.INVCHR, looked at by DECODE only (45 R149). -/
def Call.flags (c : Call) (status : Byte) : Bool :=
  match c with
  | .encode _ _ => false
  | .decode _ => statusInvchr status

/-- What a call returns when its last command has answered (45 R147, R154, R155). -/
def Call.finish (strict : Bool) (c : Call) (pad : Nat) (out : List Byte) (bad : Bool) : SeqResult :=
  match c with
  | .encode _ _ => .value (out ++ marker pad)
  | .decode _ => if bad && strict then .seqError .eBadChr else .value (out.take (out.length - pad))

/-- A call that has commands left is running; one that has none returns. -/
def Call.phase (strict : Bool) (c : Call) (pad : Nat) (todo : List Word48) (out : List Byte) (bad : Bool) :
    Phase :=
  match todo with
  | [] => .returned (c.finish strict pad out bad)
  | w :: ws => .running pad (w :: ws) out bad

/-- A call as it begins: an error and an empty input return before any command is issued (45 R143, R157). -/
def Call.start (strict : Bool) (c : Call) : Phase :=
  match c.plan with
  | .fail e => .returned (.seqError e)
  | .go pad words => c.phase strict pad words [] false

end Sys2Proof.Machine
end

