-- ==== Sys2Proof/Machine/Hosts.lean ====
section
/-! DEFINITION. What each host action does (45 R140): the command port, the register reads, reset, and the
host procedures that drive the port. -/

namespace Sys2Proof.Machine

/-- The block runs one command word: its command's meaning, or the reserved command (30 R67, 60 R171). -/
def runWord (w : Word48) (s : State) : StepResult :=
  match decode w with
  | .command i => exec i s
  | .reserved _ => .next s.reservedCommand

/-- A host issues a word: the block runs it and answers the issuer, in one step (45 R140, 70 R195). -/
def issueWord (h : HostId) (w : Word48) (s : State) : StepResult :=
  andThen (runWord w s) (fun t => .next (t.respond h))

/-- A host calls a procedure: a new record at the end of `procs`. -/
def State.startCall (s : State) (h : HostId) (c : Call) : State :=
  { s with procs := s.procs ++ [⟨h, c, c.start Config.strictDecode⟩] }

/-- A running procedure takes the response its last command wrote to RESULT and STATUS (45 R140, R141). -/
def State.takeResponse (s : State) (k : Nat) (h : HostId) (c : Call) (pad : Nat) (todo : List Word48)
    (out : List Byte) (bad : Bool) : State :=
  { s with procs := s.procs.set k ⟨h, c, c.phase Config.strictDecode pad todo
      (out ++ c.output s.result) (bad || c.flags s.status)⟩ }

/-- Procedure number `k` issues its next command and takes the response. A number with no running procedure
has no move: nothing changes (notes/assumptions/7). -/
def advanceCall (k : Nat) (s : State) : StepResult :=
  match s.procs[k]? with
  | some ⟨h, c, .running pad (w :: todo) out bad⟩ =>
    andThen (issueWord h w s) (fun t => .next (t.takeResponse k h c pad todo out bad))
  | _ => .next s

/-- One host action (45 R140). -/
def perform (a : HostAction) (s : State) : StepResult :=
  match a with
  | .issue h w => issueWord h w s
  | .readResult h => .next (s.deliver (.resultRead h s.result))
  | .readStatus h => .next (s.deliver (.statusRead h s.status))
  | .reset => .next s.resetRegisters
  | .resetInFlight _ _ => .next s.resetRegisters
  | .call h c => .next (s.startCall h c)
  | .advance k => advanceCall k s

/-- The next host action reaches the block; with none, the block is idle and holds its state (60 R185). -/
def nextAction (s : State) : StepResult :=
  match s.port with
  | [] => .next s
  | a :: rest => perform a { s with port := rest }

/-- The state in which a host presents the word `w` to the port next, before every action already
pending. -/
def State.present (s : State) (h : HostId) (w : Word48) : State := { s with port := .issue h w :: s.port }

/-- A program as a host presents it: its command words, one after another (10 R22). -/
def program (h : HostId) (ws : List Word48) : List HostAction := ws.map (.issue h)

end Sys2Proof.Machine
end

