-- ==== Sys2Proof/Machine/Step.lean ====
section
/-! DEFINITION. One step, and how the host's harness hands the machine an instruction. -/

namespace Sys2Proof.Machine

/-- One step: the oldest pending host action takes effect (45 R140, 20 R56). -/
def step : State → Host.Outcome State Fault Refusal := nextAction

/-- The state in which host 0 presents the command word `w`, less its bits above `nbits`, as the very next
action (notes/assumptions/6). -/
def State.withFetchWord (s : State) (nbits w : Nat) : State :=
  s.present 0 (BitVec.ofNat 48 (w % 2 ^ nbits))

end Sys2Proof.Machine
end

