-- ==== Sys2Proof/Machine/Assembler.lean ====
section
/-! DEFINITION. The command syntax of 30 R69: from a line of text to a command word. What R69 leaves open
(blanks, hexadecimal letters, `_` in numbers) is in notes/assumptions/9. -/

namespace Sys2Proof.Machine

/-- The forms of the table of 30 R69. -/
inductive AsmStmt where
  | enc32 (n : Nat)
  | dec32Text (s : List Byte)
  | dec32Num (n : Nat)
  | alphaRd (n : Nat)
  | rlutRdChar (c : Byte)
  | rlutRdNum (n : Nat)
  | word48 (n : Nat)
  deriving DecidableEq, Repr

/-- A character that may be written literally: its code is in 0x20..0x7E (30 R69). -/
def literal (c : Byte) : Bool := 0x20 ≤ c.toNat && c.toNat ≤ 0x7E

/-- The operand is in the range its form allows (30 R69). -/
def AsmStmt.wf : AsmStmt → Bool
  | .enc32 n => n ≤ 0xFFFFFFFF
  | .dec32Text s => s.length == 5 && s.all literal
  | .dec32Num n => n ≤ 0xFFFFFFFFFF
  | .alphaRd n => n ≤ 255
  | .rlutRdChar c => literal c
  | .rlutRdNum n => n ≤ 255
  | .word48 n => n < 2 ^ 48

/-- The word a statement in range assembles to; ignored operand bits are 0 (30 R69). -/
def AsmStmt.word : AsmStmt → Word48
  | .enc32 n => 0x01#8 ++ 0x00#8 ++ BitVec.ofNat 32 n
  | .dec32Text s =>
    0x02#8 ++ s.getD 0 0#8 ++ s.getD 1 0#8 ++ s.getD 2 0#8 ++ s.getD 3 0#8 ++ s.getD 4 0#8
  | .dec32Num n => 0x02#8 ++ BitVec.ofNat 40 n
  | .alphaRd n => 0x03#8 ++ 0x00000000#32 ++ BitVec.ofNat 8 n
  | .rlutRdChar c => 0x04#8 ++ 0x00000000#32 ++ c
  | .rlutRdNum n => 0x04#8 ++ 0x00000000#32 ++ BitVec.ofNat 8 n
  | .word48 n => BitVec.ofNat 48 n

/-- A statement's word; `none` is an assembly error, never a truncation (30 R69). -/
def AsmStmt.assemble (s : AsmStmt) : Option Word48 := if s.wf then some s.word else none

/-! ### Text -/

/-- A space or a tab. -/
def isBlank (c : Byte) : Bool := c == 0x20#8 || c == 0x09#8

/-- The text after its leading blanks. -/
def skipBlanks (l : List Byte) : List Byte := l.dropWhile isBlank

/-- Nothing is left on the line but blanks and a comment: `;` starts a comment (30 R69). -/
def atEnd (l : List Byte) : Bool :=
  match skipBlanks l with
  | [] => true
  | c :: _ => c == 0x3B#8

/-- The value of a digit in a base. -/
def digitValue (base : Nat) (c : Byte) : Option Nat :=
  let n := c.toNat
  let d := if 0x30 ≤ n ∧ n ≤ 0x39 then n - 0x30
    else if 0x41 ≤ n ∧ n ≤ 0x46 then n - 0x37
    else if 0x61 ≤ n ∧ n ≤ 0x66 then n - 0x57
    else base
  if d < base then some d else none

/-- The digits at the head of the text; `_` between digits is skipped. -/
def readDigits (base : Nat) : List Byte → Nat → Bool → Option (Nat × List Byte)
  | [], acc, seen => if seen then some (acc, []) else none
  | c :: rest, acc, seen =>
    if c == 0x5F#8 && seen then readDigits base rest acc seen
    else match digitValue base c with
      | some d => readDigits base rest (acc * base + d) true
      | none => if seen then some (acc, c :: rest) else none

/-- A number, decimal or hexadecimal after `0x` (30 R69). -/
def readNumber (l : List Byte) : Option (Nat × List Byte) :=
  match l with
  | a :: b :: rest => if a == 0x30#8 && b == 0x78#8 then readDigits 16 rest 0 false else readDigits 10 l 0 false
  | _ => readDigits 10 l 0 false

/-- The characters up to the closing quote; a quote and a backslash stand after a backslash (30 R69). -/
def readQuoted : List Byte → Option (List Byte × List Byte)
  | [] => none
  | c :: rest =>
    if c == 0x22#8 then some ([], rest)
    else if c == 0x5C#8 then
      match rest with
      | e :: rest' =>
        if e == 0x22#8 || e == 0x5C#8 then (readQuoted rest').map (fun r => (e :: r.1, r.2)) else none
      | [] => none
    else (readQuoted rest).map (fun r => (c :: r.1, r.2))

/-- A number that ends the line, in the form `f` makes of it. -/
def numberStmt (f : Nat → AsmStmt) (l : List Byte) : Option AsmStmt :=
  match readNumber l with
  | some (n, rest) => if atEnd rest then some (f n) else none
  | none => none

/-- The operand of DEC32: a quoted group or a number (30 R69). -/
def dec32Stmt (l : List Byte) : Option AsmStmt :=
  match l with
  | c :: rest =>
    if c == 0x22#8 then
      match readQuoted rest with
      | some (s, rest') => if atEnd rest' then some (.dec32Text s) else none
      | none => none
    else numberStmt .dec32Num l
  | [] => none

/-- The operand of RLUT_RD: a character between single quotes, taken as it stands, or a number (30 R69). -/
def rlutRdStmt (l : List Byte) : Option AsmStmt :=
  match l with
  | q :: c :: q' :: rest =>
    if q == 0x27#8 then (if q' == 0x27#8 && atEnd rest then some (.rlutRdChar c) else none)
    else numberStmt .rlutRdNum l
  | _ => numberStmt .rlutRdNum l

/-- `ENC32` in ASCII. -/
def nameEnc32 : List Byte := [0x45, 0x4E, 0x43, 0x33, 0x32]
/-- `DEC32` in ASCII. -/
def nameDec32 : List Byte := [0x44, 0x45, 0x43, 0x33, 0x32]
/-- `ALPHA_RD` in ASCII. -/
def nameAlphaRd : List Byte := [0x41, 0x4C, 0x50, 0x48, 0x41, 0x5F, 0x52, 0x44]
/-- `RLUT_RD` in ASCII. -/
def nameRlutRd : List Byte := [0x52, 0x4C, 0x55, 0x54, 0x5F, 0x52, 0x44]
/-- `.word48` in ASCII. -/
def nameWord48 : List Byte := [0x2E, 0x77, 0x6F, 0x72, 0x64, 0x34, 0x38]

/-- The statement of a line that holds one. -/
def parseStmt (l : List Byte) : Option AsmStmt :=
  let name := l.takeWhile (fun c => !isBlank c)
  let rest := skipBlanks (l.dropWhile (fun c => !isBlank c))
  if name = nameEnc32 then numberStmt .enc32 rest
  else if name = nameDec32 then dec32Stmt rest
  else if name = nameAlphaRd then numberStmt .alphaRd rest
  else if name = nameRlutRd then rlutRdStmt rest
  else if name = nameWord48 then numberStmt .word48 rest
  else none

/-- What a line assembles to. -/
inductive AsmLine where
  | nothing
  | word (w : Word48)
  | asmError
  deriving DecidableEq, Repr

/-- One line: a blank or comment line, or one command (30 R69). -/
def assembleLine (l : List Byte) : AsmLine :=
  if atEnd l then .nothing
  else match (parseStmt (skipBlanks l)).bind AsmStmt.assemble with
    | some w => .word w
    | none => .asmError

/-- The lines of a text, cut at 0x0A. -/
def linesOf : List Byte → List (List Byte)
  | [] => [[]]
  | c :: rest =>
    if c == 0x0A#8 then [] :: linesOf rest
    else match linesOf rest with
      | [] => [[c]]
      | l :: ls => (c :: l) :: ls

/-- The words of assembled lines; `none` if one is an error. -/
def wordsOf : List AsmLine → Option (List Word48)
  | [] => some []
  | .nothing :: ls => wordsOf ls
  | .word w :: ls => (wordsOf ls).map (w :: ·)
  | .asmError :: _ => none

/-- A program text to its command words, one command a line (30 R69). -/
def assembleText (text : List Byte) : Option (List Word48) := wordsOf ((linesOf text).map assembleLine)

end Sys2Proof.Machine
end

