-- ==== Sys2Proof/Safety.lean ====
section
/-! DEFINITION. What holds of every state a run reaches, and what a safe run is. -/

namespace Sys2Proof.Machine

/-- Both ROMs hold their contents (10 R28, R30). -/
def RomsIntact (s : State) : Prop := s.alpha = alphaRom ∧ s.rlut = rlutRom

/-- The legal values of STATUS (10 R25). -/
def legalStatus : List Byte := [0x00, 0x01, 0x03, 0x05, 0x09, 0x0D, 0x11]

/-- What STATUS says about RESULT beside it: nothing has been answered (0x00) or the index was out of range
(0x11) with RESULT 0 (10 R30, 42 R120); with OVF and no ILLEGAL the answer is a frame (41 R100), and with OVF
alone it is below 85^5 - 2^32 = 142085829 (41 R102). -/
def RegistersAgree (result : Word40) (status : Byte) : Prop :=
  status ∈ legalStatus ∧
  (status = 0x00#8 ∨ status = 0x11#8 → result = 0#40) ∧
  (status = 0x0D#8 → result.toNat < 2 ^ 32) ∧
  (status = 0x09#8 → result.toNat < 142085829)

/-- What a running call has done: a first part of its frames or groups, whose output it holds; the commands
of the rest are still to issue (45 R142, R149). -/
def Call.Progress (c : Call) (pad : Nat) (todo : List Word48) (out : List Byte) (bad : Bool) : Prop :=
  match c with
  | .encode data autoPad => ∃ done rest, encodePlan data autoPad = .go pad (done ++ rest) ∧
      todo = rest.map enc32Word ∧ out = encodedChars done ∧ bad = false
  | .decode text => ∃ done rest, decodePlan text = .go pad (done ++ rest) ∧
      todo = rest.map dec32Word ∧ out = decodedBytes done ∧ bad = anyInvchr done

/-- A call record is in order: running, it has commands left and its output is that of those done; returned,
its result is the value of the call (45 R158). -/
def Proc.Ok (p : Proc) : Prop :=
  match p.phase with
  | .running pad todo out bad => todo ≠ [] ∧ p.call.Progress pad todo out bad
  | .returned r => r = p.call.value Config.strictDecode

/-- What was delivered is what the block can hold: a response has VALID (60 R170), and its RESULT and STATUS
agree; a STATUS read is a legal value (10 R25). -/
def Delivery.Ok : Delivery → Prop
  | .response _ result status => statusValid status = true ∧ RegistersAgree result status
  | .resultRead _ _ => True
  | .statusRead _ v => v ∈ legalStatus

/-- The machine's invariant. -/
structure State.Inv (s : State) : Prop where
  roms : RomsIntact s
  registers : RegistersAgree s.result s.status
  delivered : ∀ d ∈ s.delivered, d.Ok
  procs : ∀ p ∈ s.procs, p.Ok

/-- A run of `k` steps is safe: no step of it faults or refuses (60 R170). -/
def SafeRun (k : Nat) (s : State) : Prop := ∃ t, Sys2Proof.core.run k s = .next t

end Sys2Proof.Machine
end

