-- ==== Sys2Proof/WellFormed.lean ====
section
/-! DEFINITION. A well-formed command is one an assembler writes: its ignored bits are 0 (30 R65, R69). The
block runs the other terms as well, to the same effect (30 R65), and so does the model: no meaning reads this
check. Every field has its exact width by type, so nothing else can be out of range. -/

namespace Sys2Proof

/-- The command's ignored operand bits are 0, as an assembler writes them (30 R65, R69). -/
def Instr.wf : Instr → Bool
  | .enc32 ignored _ => ignored == 0
  | .dec32 _ _ _ _ _ => true
  | .alphaRd ignored _ => ignored == 0
  | .rlutRd ignored _ => ignored == 0

end Sys2Proof
end

