-- ==== Sys2Proof/Certificates/Slice0/Obligations.lean ====
section
/-! DEFINITION. The statements about the machine, for the provers. Rules are those of spec/. -/

open Sys2Proof Sys2Proof.Machine

/-! ### Encoding -/

/-- R63: which words are legal, the match and mask rows, that a reserved word executes as ILLEGAL, that 252
CMD bytes are reserved, and that the operand does not matter. -/
def Obligations.LegalCommandWords : Prop :=
  (∀ w : Word48, (∃ i, decode w = .command i) ↔
    w.extractLsb' 44 4 = 0x0#4 ∧
      (w.extractLsb' 40 4 = 0x1#4 ∨ w.extractLsb' 40 4 = 0x2#4 ∨ w.extractLsb' 40 4 = 0x3#4 ∨
        w.extractLsb' 40 4 = 0x4#4)) ∧
  (∀ w : Word48,
    ((∃ g v, decode w = .command (.enc32 g v)) ↔ w &&& 0xFF0000000000#48 = 0x010000000000#48) ∧
    ((∃ c0 c1 c2 c3 c4, decode w = .command (.dec32 c0 c1 c2 c3 c4)) ↔
      w &&& 0xFF0000000000#48 = 0x020000000000#48) ∧
    ((∃ g x, decode w = .command (.alphaRd g x)) ↔ w &&& 0xFF0000000000#48 = 0x030000000000#48) ∧
    ((∃ g c, decode w = .command (.rlutRd g c)) ↔ w &&& 0xFF0000000000#48 = 0x040000000000#48)) ∧
  (∀ (w : Word48) (s : State), (∀ i, decode w ≠ .command i) →
    runWord w s = .next { s with status := 0x03#8 }) ∧
  ((List.range 256).filter (fun c => !legal (BitVec.ofNat 8 c ++ 0#40))).length = 252 ∧
  (∀ (c : Byte) (o o' : Word40), (∃ i, decode (c ++ o) = .command i) ↔ (∃ i, decode (c ++ o') = .command i))

/-- Decoding the encoding of any command gives it back, for every value of every field. -/
def Obligations.DecodeOfEncode : Prop := ∀ i : Instr, decode (encode i) = .command i

/-- Encoding what a word decodes to gives the word back: a legal word has one meaning and no bit is lost. -/
def Obligations.EncodeOfDecode : Prop :=
  ∀ (w : Word48) (i : Instr), decode w = .command i → encode i = w

/-- R61, R64: the bits of W each operand field is. -/
def Obligations.OperandFields : Prop :=
  (∀ w : Word48, rsv w = w.extractLsb' 44 4 ∧ op w = w.extractLsb' 40 4 ∧
    operand w = w.extractLsb' 0 40 ∧ w = rsv w ++ op w ++ operand w) ∧
  (∀ w : Word48, w.extractLsb' 40 8 = 0x01#8 →
    decode w = .command (.enc32 (w.extractLsb' 32 8) (w.extractLsb' 0 32))) ∧
  (∀ w : Word48, w.extractLsb' 40 8 = 0x02#8 →
    decode w = .command (.dec32 (w.extractLsb' 32 8) (w.extractLsb' 24 8) (w.extractLsb' 16 8)
      (w.extractLsb' 8 8) (w.extractLsb' 0 8))) ∧
  (∀ w : Word48, w.extractLsb' 40 8 = 0x03#8 →
    decode w = .command (.alphaRd (w.extractLsb' 8 32) (w.extractLsb' 0 8))) ∧
  (∀ w : Word48, w.extractLsb' 40 8 = 0x04#8 →
    decode w = .command (.rlutRd (w.extractLsb' 8 32) (w.extractLsb' 0 8))) ∧
  (∀ b0 b1 b2 b3 : Byte, (enc32Word (frameOfBytes b0 b1 b2 b3)).extractLsb' 0 32 = b0 ++ b1 ++ b2 ++ b3) ∧
  (∀ c0 c1 c2 c3 c4 : Byte,
    (dec32Word (packGroup c0 c1 c2 c3 c4)).extractLsb' 0 40 = c0 ++ c1 ++ c2 ++ c3 ++ c4)

/-- Words the spec writes out decode to the commands they stand for (30 R69, 95 sections 2.1 to 2.5). -/
def Obligations.WrittenWordsDecode : Prop :=
  decode 0x0100864FD26F#48 = .command (.enc32 0x00 0x864FD26F) ∧
  decode 0x01AB864FD26F#48 = .command (.enc32 0xAB 0x864FD26F) ∧
  decode 0x0248656C6C6F#48 = .command (.dec32 0x48 0x65 0x6C 0x6C 0x6F) ∧
  decode 0x03FFFFFFFF2B#48 = .command (.alphaRd 0xFFFFFFFF 0x2B) ∧
  decode 0x040000000023#48 = .command (.rlutRd 0x00000000 0x23) ∧
  decode 0x050000000000#48 = .reserved (.opReserved 0x5) ∧
  decode 0x1100864FD26F#48 = .reserved (.rsvNotZero 0x1)

/-- R65: two words of one command that differ only in ignored operand bits run to the same state, and an
assembler writes the ignored bits as 0. -/
def Obligations.IgnoredBitsHaveNoEffect : Prop :=
  (∀ (w w' : Word48) (s : State), w.extractLsb' 40 8 = 0x01#8 → w'.extractLsb' 40 8 = 0x01#8 →
    w.extractLsb' 0 32 = w'.extractLsb' 0 32 → runWord w s = runWord w' s) ∧
  (∀ (w w' : Word48) (s : State), w.extractLsb' 40 8 = 0x03#8 → w'.extractLsb' 40 8 = 0x03#8 →
    w.extractLsb' 0 8 = w'.extractLsb' 0 8 → runWord w s = runWord w' s) ∧
  (∀ (w w' : Word48) (s : State), w.extractLsb' 40 8 = 0x04#8 → w'.extractLsb' 40 8 = 0x04#8 →
    w.extractLsb' 0 8 = w'.extractLsb' 0 8 → runWord w s = runWord w' s) ∧
  (∀ (n : Nat) (w : Word48) (i : Instr), AsmStmt.assemble (.enc32 n) = some w ∨
    AsmStmt.assemble (.alphaRd n) = some w ∨ AsmStmt.assemble (.rlutRdNum n) = some w ∨
    (∃ c, AsmStmt.assemble (.rlutRdChar c) = some w) → decode w = .command i → i.wf = true)

/-- R69: an operand out of range is an error, and each form in range assembles to the word of its table;
the file's three examples, from text. -/
def Obligations.AssemblerForms : Prop :=
  (∀ n : Nat, AsmStmt.assemble (.enc32 n) =
    if n ≤ 0xFFFFFFFF then some (0x01#8 ++ 0x00#8 ++ BitVec.ofNat 32 n) else none) ∧
  (∀ s : List Byte, (∀ c0 c1 c2 c3 c4, s = [c0, c1, c2, c3, c4] →
      (∀ c ∈ s, 0x20 ≤ c.toNat ∧ c.toNat ≤ 0x7E) →
      AsmStmt.assemble (.dec32Text s) = some (0x02#8 ++ c0 ++ c1 ++ c2 ++ c3 ++ c4)) ∧
    (s.length ≠ 5 ∨ (∃ c ∈ s, c.toNat < 0x20 ∨ 0x7E < c.toNat) → AsmStmt.assemble (.dec32Text s) = none)) ∧
  (∀ n : Nat, AsmStmt.assemble (.dec32Num n) =
    if n ≤ 0xFFFFFFFFFF then some (0x02#8 ++ BitVec.ofNat 40 n) else none) ∧
  (∀ n : Nat, AsmStmt.assemble (.alphaRd n) =
    if n ≤ 255 then some (0x03#8 ++ 0x00000000#32 ++ BitVec.ofNat 8 n) else none) ∧
  (∀ c : Byte, AsmStmt.assemble (.rlutRdChar c) =
    if 0x20 ≤ c.toNat ∧ c.toNat ≤ 0x7E then some (0x04#8 ++ 0x00000000#32 ++ c) else none) ∧
  (∀ n : Nat, AsmStmt.assemble (.rlutRdNum n) =
    if n ≤ 255 then some (0x04#8 ++ 0x00000000#32 ++ BitVec.ofNat 8 n) else none) ∧
  (∀ n : Nat, AsmStmt.assemble (.word48 n) = if n < 2 ^ 48 then some (BitVec.ofNat 48 n) else none) ∧
  -- ENC32 0x864FD26F
  assembleText [0x45, 0x4E, 0x43, 0x33, 0x32, 0x20, 0x30, 0x78, 0x38, 0x36, 0x34, 0x46, 0x44, 0x32, 0x36, 0x46]
    = some [0x0100864FD26F#48] ∧
  -- DEC32 "Hello"
  assembleText [0x44, 0x45, 0x43, 0x33, 0x32, 0x20, 0x22, 0x48, 0x65, 0x6C, 0x6C, 0x6F, 0x22]
    = some [0x0248656C6C6F#48] ∧
  -- RLUT_RD '#'
  assembleText [0x52, 0x4C, 0x55, 0x54, 0x5F, 0x52, 0x44, 0x20, 0x27, 0x23, 0x27] = some [0x040000000023#48]

/-! ### The ROMs -/

/-- R42: the alphabet codes are pairwise distinct and lie in 0x21..0x7D, and the printable codes, space and
DEL that are not among them are the eleven listed. -/
def Obligations.AlphabetIsDistinct : Prop :=
  (∀ d e : Fin 85, alphaRom.get d = alphaRom.get e → d = e) ∧
  (∀ d : Fin 85, 0x21 ≤ (alphaRom.get d).toNat ∧ (alphaRom.get d).toNat ≤ 0x7D ∧
    (alphaRom.get d).getLsbD 7 = false) ∧
  (∀ c : Byte, 0x20 ≤ c.toNat → c.toNat ≤ 0x7F → ((∀ d, alphaRom.get d ≠ c) ↔
    c ∈ [0x22#8, 0x27#8, 0x2C#8, 0x3B#8, 0x5C#8, 0x5F#8, 0x60#8, 0x7C#8, 0x7E#8, 0x20#8, 0x7F#8]))

/-- R43: the index of a character, and the two codes that reach each index. -/
def Obligations.RlutIndexOfCode : Prop :=
  (∀ c : Byte, (rlutIndex c).toNat = ((c.toNat + 256 - 32) % 256) % 128) ∧
  (∀ c : Byte, 0x20 ≤ c.toNat → c.toNat ≤ 0x7F → (rlutIndex c).toNat = c.toNat - 0x20) ∧
  (∀ c : Byte, c.toNat ≤ 0x1F → (rlutIndex c).toNat = c.toNat + 0x60) ∧
  (∀ i : BitVec 7, ∃ c : Byte, ∀ c' : Byte, rlutIndex c' = i ↔ c' = c ∨ c' = c ^^^ 0x80#8)

/-- R44, R45: an RLUT entry is valid with digit d exactly when its index is that of ALPHA[d]; such a d is
unique; every other entry has valid 0 and the digit SENTINEL(i); 85 entries are valid and 43 are not. -/
def Obligations.RlutFollowsAlphabet : Prop :=
  (∀ (i : BitVec 7) (d : Byte), rlutRom.get i.toFin = ⟨true, d⟩ ↔
    ∃ h : d.toNat < 85, i = rlutIndex (alphaRom.get ⟨d.toNat, h⟩)) ∧
  (∀ d e : Fin 85, rlutIndex (alphaRom.get d) = rlutIndex (alphaRom.get e) → d = e) ∧
  (∀ i : BitVec 7, (∀ d : Fin 85, i ≠ rlutIndex (alphaRom.get d)) →
    rlutRom.get i.toFin = ⟨false, Config.sentinel i⟩) ∧
  (rlutRom.toList.filter (·.valid)).length = 85 ∧ (rlutRom.toList.filter (!·.valid)).length = 43

/-- R46: the two ROMs are inverse to each other. -/
def Obligations.RomsAreInverse : Prop :=
  (∀ d : Fin 85, rlutRom.get (rlutIndex (alphaRom.get d)).toFin = ⟨true, BitVec.ofNat 8 d.val⟩) ∧
  (∀ i : BitVec 7, (rlutRom.get i.toFin).valid = true →
    ∃ h : (rlutRom.get i.toFin).digit.toNat < 85,
      rlutIndex (alphaRom.get ⟨(rlutRom.get i.toFin).digit.toNat, h⟩) = i)

/-- R47, R48: codes that differ only in bit 7 reach one entry, as 0xC8 reaches that of `H`; membership by bit
7 and the valid bit is membership in the alphabet; INVCHR reports it in DEC32 and RLUT_RD; it changes no data:
characters that reach the same entries give the same RESULT. -/
def Obligations.AlphabetMembership : Prop :=
  (∀ c : Byte, isAlpha rlutRom c = true ↔
    c.getLsbD 7 = false ∧ (rlutRom.get (rlutIndex c).toFin).valid = true) ∧
  (∀ c : Byte, isAlpha rlutRom c = true ↔ ∃ d, alphaRom.get d = c) ∧
  (∀ c : Byte, rlutIndex c = rlutIndex (c ^^^ 0x80#8)) ∧
  (rlutRom.get (rlutIndex 0xC8#8).toFin = ⟨true, 43⟩ ∧ rlutRom.get (rlutIndex 0x48#8).toFin = ⟨true, 43⟩) ∧
  (∀ (s : State) (c0 c1 c2 c3 c4 : Byte), RomsIntact s → ∃ t, exec (.dec32 c0 c1 c2 c3 c4) s = .next t ∧
    (t.status.getLsbD 2 = true ↔ ∃ c ∈ [c0, c1, c2, c3, c4], ∀ d, alphaRom.get d ≠ c)) ∧
  (∀ (s : State) (g : BitVec 32) (c : Byte), RomsIntact s → ∃ t, exec (.rlutRd g c) s = .next t ∧
    (t.status.getLsbD 2 = true ↔ ∀ d, alphaRom.get d ≠ c)) ∧
  (∀ (s : State) (a0 a1 a2 a3 a4 b0 b1 b2 b3 b4 : Byte), rlutIndex a0 = rlutIndex b0 →
    rlutIndex a1 = rlutIndex b1 → rlutIndex a2 = rlutIndex b2 → rlutIndex a3 = rlutIndex b3 →
    rlutIndex a4 = rlutIndex b4 → ∃ t u, exec (.dec32 a0 a1 a2 a3 a4) s = .next t ∧
      exec (.dec32 b0 b1 b2 b3 b4) s = .next u ∧ t.result = u.result) ∧
  (∀ (s : State) (g : BitVec 32) (c c' : Byte), rlutIndex c = rlutIndex c' →
    ∃ t u, exec (.rlutRd g c) s = .next t ∧ exec (.rlutRd g c') s = .next u ∧ t.result = u.result)

/-- R49, R51: where the characters of a group and the bytes of a frame lie, and that nothing else is in the
words. -/
def Obligations.GroupAndFramePacking : Prop :=
  (∀ c0 c1 c2 c3 c4 : Byte, (packGroup c0 c1 c2 c3 c4).extractLsb' 32 8 = c0 ∧
    (packGroup c0 c1 c2 c3 c4).extractLsb' 24 8 = c1 ∧ (packGroup c0 c1 c2 c3 c4).extractLsb' 16 8 = c2 ∧
    (packGroup c0 c1 c2 c3 c4).extractLsb' 8 8 = c3 ∧ (packGroup c0 c1 c2 c3 c4).extractLsb' 0 8 = c4) ∧
  (∀ (w : Word40) (k : Fin 5), charAt w k = w.extractLsb' (32 - 8 * k.val) 8) ∧
  (∀ w : Word40, packGroup (charAt w 0) (charAt w 1) (charAt w 2) (charAt w 3) (charAt w 4) = w) ∧
  (∀ b0 b1 b2 b3 : Byte, (frameOfBytes b0 b1 b2 b3).toNat =
    b0.toNat * 2 ^ 24 + b1.toNat * 2 ^ 16 + b2.toNat * 2 ^ 8 + b3.toNat) ∧
  (∀ b0 b1 b2 b3 : Byte, (frameOfBytes b0 b1 b2 b3).extractLsb' 24 8 = b0 ∧
    (frameOfBytes b0 b1 b2 b3).extractLsb' 0 8 = b3) ∧
  (∀ b0 b1 b2 b3 : Byte, bytesOfFrame (frameOfBytes b0 b1 b2 b3) = [b0, b1, b2, b3]) ∧
  (∀ v : Frame, (word40OfFrame v).toNat = v.toNat ∧ frameOfWord40 (word40OfFrame v) = v)

/-- R28: no step writes a ROM, in any state. -/
def Obligations.RomsAreNeverWritten : Prop :=
  ∀ s t : State, step s = .next t → t.alpha = s.alpha ∧ t.rlut = s.rlut

/-! ### ENC32 -/

/-- R80: the command's word, its result character by character, its STATUS, that nothing else changes, and
the rule's corner cases and example. -/
def Obligations.Enc32WritesTheGroup : Prop :=
  (∀ (ign : Byte) (v : Frame) (s : State),
    decode (0x01#8 ++ ign ++ v) = .command (.enc32 ign v) ∧
    ∃ t, exec (.enc32 ign v) s = .next t ∧
      (∀ k : Fin 5, t.result.extractLsb' (32 - 8 * k.val) 8 =
        s.alpha.get (Fin.ofNat 85 (v.toNat / 85 ^ (4 - k.val)))) ∧
      t.status = 0x01#8 ∧ v.toNat / 85 ^ 4 ≤ 82 ∧
      t = { s with result := t.result, status := t.status }) ∧
  (∀ (ign : Byte) (s : State), RomsIntact s →
    exec (.enc32 ign 0x00000000) s = .next { s with result := 0x3030303030#40, status := 0x01#8 } ∧
    exec (.enc32 ign 0xFFFFFFFF) s = .next { s with result := 0x256E536330#40, status := 0x01#8 } ∧
    exec (.enc32 ign 84) s = .next { s with result := 0x3030303023#40, status := 0x01#8 } ∧
    exec (.enc32 ign 85) s = .next { s with result := 0x3030303130#40, status := 0x01#8 } ∧
    exec (.enc32 ign 0x864FD26F) s = .next { s with result := 0x48656C6C6F#40, status := 0x01#8 })

/-- R81: the form with a running remainder and divisor gives the digits of R80. -/
def Obligations.Enc32DivisorForm : Prop :=
  (85 ^ 1 = 85 ∧ 85 ^ 2 = 7225 ∧ 85 ^ 3 = 614125 ∧ 85 ^ 4 = 52200625) ∧
  (∀ v : Frame, divisorDigits 5 v.toNat 52200625 =
    [v.toNat / 85 ^ 4 % 85, v.toNat / 85 ^ 3 % 85, v.toNat / 85 ^ 2 % 85, v.toNat / 85 % 85, v.toNat % 85]) ∧
  (∀ (v : Frame) (k : Fin 5), (divisorDigits 5 v.toNat 52200625)[k.val]? = some (encDigit v k).val)

/-- R82: the first digit is at most 82 and its `mod 85` does nothing, so the first character is neither `$`
nor `#`; each other digit takes every value. -/
def Obligations.Enc32FirstDigit : Prop :=
  ((2 ^ 32 - 1) / 52200625 = 82) ∧
  (∀ v : Frame, (encDigit v 0).val = v.toNat / 52200625 ∧ (encDigit v 0).val ≤ 82) ∧
  (∀ (v : Frame) (ign : Byte) (s : State), RomsIntact s → ∃ t, exec (.enc32 ign v) s = .next t ∧
    t.result.extractLsb' 32 8 ≠ 0x24#8 ∧ t.result.extractLsb' 32 8 ≠ 0x23#8) ∧
  (∀ (k : Fin 5) (d : Fin 85), k ≠ 0 → ∃ v : Frame, encDigit v k = d)

/-- R83: distinct frames give distinct results, and every output character is an alphabet code. -/
def Obligations.Enc32IsInjective : Prop :=
  ∀ (s : State), RomsIntact s →
    (∀ (v v' : Frame) (g g' : Byte) (t t' : State), exec (.enc32 g v) s = .next t →
      exec (.enc32 g' v') s = .next t' → t.result = t'.result → v = v') ∧
    (∀ (v : Frame) (g : Byte), ∃ t, exec (.enc32 g v) s = .next t ∧
      ∀ k : Fin 5, isAlpha rlutRom (t.result.extractLsb' (32 - 8 * k.val) 8) = true)

/-! ### DEC32 -/

/-- R100: the command's word, its result and STATUS from the ROM digits, that nothing else changes, and the
rule's corner cases and example. -/
def Obligations.Dec32WritesTheFrame : Prop :=
  (∀ (c0 c1 c2 c3 c4 : Byte) (s : State),
    decode (0x02#8 ++ c0 ++ c1 ++ c2 ++ c3 ++ c4) = .command (.dec32 c0 c1 c2 c3 c4) ∧
    ∃ (val : Nat) (t : State),
      val = (s.rlut.get (rlutIndex c0).toFin).digit.toNat * 85 ^ 4 +
        (s.rlut.get (rlutIndex c1).toFin).digit.toNat * 85 ^ 3 +
        (s.rlut.get (rlutIndex c2).toFin).digit.toNat * 85 ^ 2 +
        (s.rlut.get (rlutIndex c3).toFin).digit.toNat * 85 +
        (s.rlut.get (rlutIndex c4).toFin).digit.toNat ∧
      exec (.dec32 c0 c1 c2 c3 c4) s = .next t ∧
      t.result.toNat = val % 2 ^ 32 ∧
      t.status.getLsbD 0 = true ∧
      t.status.getLsbD 1 = false ∧
      (t.status.getLsbD 2 = true ↔ ∃ c ∈ [c0, c1, c2, c3, c4], isAlpha s.rlut c = false) ∧
      (t.status.getLsbD 3 = true ↔ 2 ^ 32 ≤ val) ∧
      t.status.getLsbD 4 = false ∧
      t.status.extractLsb' 5 3 = 0#3 ∧
      (t.status = 0x01#8 ∨ t.status = 0x05#8 ∨ t.status = 0x09#8 ∨ t.status = 0x0D#8) ∧
      t = { s with result := t.result, status := t.status }) ∧
  (∀ s : State, RomsIntact s →
    exec (.dec32 0x30 0x30 0x30 0x30 0x30) s = .next { s with result := 0#40, status := 0x01#8 } ∧
    exec (.dec32 0x25 0x6E 0x53 0x63 0x30) s = .next { s with result := 0x00FFFFFFFF#40, status := 0x01#8 } ∧
    exec (.dec32 0x25 0x6E 0x53 0x63 0x31) s = .next { s with result := 0#40, status := 0x09#8 } ∧
    exec (.dec32 0x23 0x23 0x23 0x23 0x23) s = .next { s with result := 0x0008780EC4#40, status := 0x09#8 } ∧
    exec (.dec32 0x48 0x65 0x6C 0x6C 0x6F) s = .next { s with result := 0x00864FD26F#40, status := 0x01#8 } ∧
    exec (.dec32 0xC8 0x65 0x6C 0x6C 0x6F) s = .next { s with result := 0x00864FD26F#40, status := 0x05#8 })

/-- R101: DEC32's RESULT is the low 32 bits of an accumulator that wraps at every step at any width of 32 bits
or more, for the ROM digits of its characters; in terms of the digits, that accumulator's low 32 bits are those
of the exact value. -/
def Obligations.Dec32AccumulatorWidth : Prop :=
  (∀ (width : Nat) (c0 c1 c2 c3 c4 : Byte) (s : State), 32 ≤ width →
    ∃ t, exec (.dec32 c0 c1 c2 c3 c4) s = .next t ∧
      t.result.toNat = wrappingLoop width [charDigit s.rlut c0, charDigit s.rlut c1, charDigit s.rlut c2,
        charDigit s.rlut c3, charDigit s.rlut c4] % 2 ^ 32) ∧
  (∀ (width : Nat) (d0 d1 d2 d3 d4 : Byte), 32 ≤ width →
    wrappingLoop width [d0, d1, d2, d3, d4] % 2 ^ 32 =
      (d0.toNat * 85 ^ 4 + d1.toNat * 85 ^ 3 + d2.toNat * 85 ^ 2 + d3.toNat * 85 + d4.toNat) % 2 ^ 32)

/-- R102: for five alphabet characters the value is at most 85^5 - 1, OVF is 1 exactly from 2^32 on, there is
exactly one group for each of the 142085829 values from "%nSc1" up to "#####", and RESULT is the value mod
2^32 with or without OVF. With any characters, the ROM digits take part and OVF is 1 exactly from 2^32 on.
DECODE ignores OVF: a text that passes the checks and holds only alphabet characters always decodes. -/
def Obligations.Dec32Overflow : Prop :=
  (∀ (s : State) (d : Fin 5 → Fin 85), RomsIntact s →
    let val := (d 0).val * 85 ^ 4 + (d 1).val * 85 ^ 3 + (d 2).val * 85 ^ 2 + (d 3).val * 85 + (d 4).val
    val ≤ 4437053124 ∧
    ∃ t, exec (.dec32 (alphaRom.get (d 0)) (alphaRom.get (d 1)) (alphaRom.get (d 2)) (alphaRom.get (d 3))
        (alphaRom.get (d 4))) s = .next t ∧
      (t.status.getLsbD 3 = true ↔ 4294967296 ≤ val) ∧ t.result.toNat = val % 4294967296) ∧
  (82 * 85 ^ 4 + 23 * 85 ^ 3 + 54 * 85 ^ 2 + 12 * 85 + 1 = 4294967296) ∧
  (4437053124 + 1 - 4294967296 = 142085829) ∧
  (∀ n : Nat, 4294967296 ≤ n → n ≤ 4437053124 → ∃ d : Fin 5 → Fin 85,
    ∀ e : Fin 5 → Fin 85,
      (e 0).val * 85 ^ 4 + (e 1).val * 85 ^ 3 + (e 2).val * 85 ^ 2 + (e 3).val * 85 + (e 4).val = n ↔ e = d) ∧
  (∀ (s : State) (c0 c1 c2 c3 c4 : Byte), ∃ t, exec (.dec32 c0 c1 c2 c3 c4) s = .next t ∧
    (t.status.getLsbD 3 = true ↔ 4294967296 ≤
      (s.rlut.get (rlutIndex c0).toFin).digit.toNat * 85 ^ 4 +
        (s.rlut.get (rlutIndex c1).toFin).digit.toNat * 85 ^ 3 +
        (s.rlut.get (rlutIndex c2).toFin).digit.toNat * 85 ^ 2 +
        (s.rlut.get (rlutIndex c3).toFin).digit.toNat * 85 +
        (s.rlut.get (rlutIndex c4).toFin).digit.toNat)) ∧
  (∀ (strict : Bool) (text : List Byte) (p : Nat) (groups : List Word40), decodePlan text = .go p groups →
    (∀ c ∈ text, ∃ d, alphaRom.get d = c) → ∃ out, seqDecode strict text = .value out)

/-- R104: DEC32 of what ENC32 v wrote gives v back, with STATUS 0x01. -/
def Obligations.Dec32InvertsEnc32 : Prop :=
  ∀ (s : State) (ign : Byte) (v : Frame), RomsIntact s →
    ∃ t, exec (.enc32 ign v) s = .next t ∧
      exec (.dec32 (t.result.extractLsb' 32 8) (t.result.extractLsb' 24 8) (t.result.extractLsb' 16 8)
        (t.result.extractLsb' 8 8) (t.result.extractLsb' 0 8)) t =
          .next { t with result := v.setWidth 40, status := 0x01#8 }

/-- R105: a group DEC32 answers with STATUS 0x01 comes back to itself under ENC32; a group it answers with
INVCHR or OVF does not. -/
def Obligations.CanonicalGroups : Prop :=
  ∀ (s : State) (c0 c1 c2 c3 c4 ign : Byte), RomsIntact s →
    ∃ t u, exec (.dec32 c0 c1 c2 c3 c4) s = .next t ∧
      exec (.enc32 ign (t.result.extractLsb' 0 32)) t = .next u ∧
      (t.status.getLsbD 2 = false → t.status.getLsbD 3 = false → u.result = c0 ++ c1 ++ c2 ++ c3 ++ c4) ∧
      (t.status.getLsbD 2 = true ∨ t.status.getLsbD 3 = true → u.result ≠ c0 ++ c1 ++ c2 ++ c3 ++ c4)

/-- R106: operands that give the same RESULT: values that differ by a multiple of 2^32 ("%nSc1" and "00000"),
characters that differ only in bit 7, characters (invalid ones too) whose entries hold the same digit; and of
two different groups with one RESULT, at most one has STATUS 0x01. -/
def Obligations.Dec32IsNotInjective : Prop :=
  (∀ (s : State) (a0 a1 a2 a3 a4 b0 b1 b2 b3 b4 : Byte),
    groupValue s.rlut a0 a1 a2 a3 a4 % 2 ^ 32 = groupValue s.rlut b0 b1 b2 b3 b4 % 2 ^ 32 →
    ∃ t u, exec (.dec32 a0 a1 a2 a3 a4) s = .next t ∧ exec (.dec32 b0 b1 b2 b3 b4) s = .next u ∧
      t.result = u.result) ∧
  (∀ (s : State) (c0 c1 c2 c3 c4 : Byte) (m0 m1 m2 m3 m4 : Bool),
    let flip := fun (m : Bool) (c : Byte) => if m then c ^^^ 0x80#8 else c
    ∃ t u, exec (.dec32 c0 c1 c2 c3 c4) s = .next t ∧
      exec (.dec32 (flip m0 c0) (flip m1 c1) (flip m2 c2) (flip m3 c3) (flip m4 c4)) s = .next u ∧
      t.result = u.result) ∧
  (∀ (s : State) (a0 a1 a2 a3 a4 b0 b1 b2 b3 b4 : Byte),
    (s.rlut.get (rlutIndex a0).toFin).digit = (s.rlut.get (rlutIndex b0).toFin).digit →
    (s.rlut.get (rlutIndex a1).toFin).digit = (s.rlut.get (rlutIndex b1).toFin).digit →
    (s.rlut.get (rlutIndex a2).toFin).digit = (s.rlut.get (rlutIndex b2).toFin).digit →
    (s.rlut.get (rlutIndex a3).toFin).digit = (s.rlut.get (rlutIndex b3).toFin).digit →
    (s.rlut.get (rlutIndex a4).toFin).digit = (s.rlut.get (rlutIndex b4).toFin).digit →
    ∃ t u, exec (.dec32 a0 a1 a2 a3 a4) s = .next t ∧ exec (.dec32 b0 b1 b2 b3 b4) s = .next u ∧
      t.result = u.result) ∧
  (∀ s : State, RomsIntact s → ∃ t u, exec (.dec32 0x25 0x6E 0x53 0x63 0x31) s = .next t ∧
    exec (.dec32 0x30 0x30 0x30 0x30 0x30) s = .next u ∧ t.result = 0#40 ∧ u.result = 0#40) ∧
  (∀ (s t u : State) (a0 a1 a2 a3 a4 b0 b1 b2 b3 b4 : Byte), RomsIntact s →
    exec (.dec32 a0 a1 a2 a3 a4) s = .next t → exec (.dec32 b0 b1 b2 b3 b4) s = .next u →
    t.result = u.result → t.status = 0x01#8 → [a0, a1, a2, a3, a4] ≠ [b0, b1, b2, b3, b4] →
    u.status.getLsbD 2 = true ∨ u.status.getLsbD 3 = true)

/-! ### ROM reads -/

/-- R120: the command's word, its two cases, that nothing else changes, and the rule's corner cases. -/
def Obligations.AlphaRdReadsTheRom : Prop :=
  (∀ (ign : BitVec 32) (idx : Byte) (s : State),
    decode (0x03#8 ++ ign ++ idx) = .command (.alphaRd ign idx) ∧
    ∃ t, exec (.alphaRd ign idx) s = .next t ∧
      (∀ h : idx.toNat ≤ 84, t.result = (s.alpha.get ⟨idx.toNat, Nat.lt_succ_of_le h⟩).setWidth 40 ∧
        t.status = 0x01#8) ∧
      (85 ≤ idx.toNat → t.result = 0#40 ∧ t.status = 0x11#8) ∧
      t = { s with result := t.result, status := t.status }) ∧
  (∀ (ign : BitVec 32) (s : State), RomsIntact s →
    exec (.alphaRd ign 0) s = .next { s with result := 0x30#40, status := 0x01#8 } ∧
    exec (.alphaRd ign 43) s = .next { s with result := 0x48#40, status := 0x01#8 } ∧
    exec (.alphaRd ign 84) s = .next { s with result := 0x23#40, status := 0x01#8 } ∧
    exec (.alphaRd ign 85) s = .next { s with result := 0#40, status := 0x11#8 } ∧
    exec (.alphaRd ign 255) s = .next { s with result := 0#40, status := 0x11#8 })

/-- R121: ALPHA_RD of a digit is the character ENC32 writes for that digit, at any position. -/
def Obligations.AlphaRdIsTheEncoderCode : Prop :=
  ∀ (s : State) (v : Frame) (g : Byte) (g' : BitVec 32) (k : Fin 5),
    ∃ t u, exec (.enc32 g v) s = .next t ∧
      exec (.alphaRd g' (BitVec.ofNat 8 (v.toNat / 85 ^ (4 - k.val) % 85))) s = .next u ∧
      u.result = (t.result.extractLsb' (32 - 8 * k.val) 8).setWidth 40 ∧ u.status = 0x01#8

/-- R122: the command's word, its result and STATUS, that nothing else changes, the rule's corner cases, and
that the digit DEC32 uses for a character is RESULT[7:0]. -/
def Obligations.RlutRdReadsTheRom : Prop :=
  (∀ (ign : BitVec 32) (c : Byte) (s : State),
    decode (0x04#8 ++ ign ++ c) = .command (.rlutRd ign c) ∧
    ∃ t, exec (.rlutRd ign c) s = .next t ∧
      t.result.getLsbD 8 = (s.rlut.get (rlutIndex c).toFin).valid ∧
      t.result.extractLsb' 0 8 = (s.rlut.get (rlutIndex c).toFin).digit ∧
      t.result.extractLsb' 9 31 = 0#31 ∧
      t.status = (if isAlpha s.rlut c then 0x01#8 else 0x05#8) ∧
      t.result.extractLsb' 0 8 = charDigit s.rlut c ∧
      t = { s with result := t.result, status := t.status }) ∧
  (∀ (ign : BitVec 32) (s : State), RomsIntact s →
    exec (.rlutRd ign 0x30) s = .next { s with result := 0x100#40, status := 0x01#8 } ∧
    exec (.rlutRd ign 0x23) s = .next { s with result := 0x154#40, status := 0x01#8 } ∧
    exec (.rlutRd ign 0x48) s = .next { s with result := 0x12B#40, status := 0x01#8 } ∧
    exec (.rlutRd ign 0x20) s =
      .next { s with result := (Config.sentinel 0).setWidth 40, status := 0x05#8 } ∧
    exec (.rlutRd ign 0x7F) s =
      .next { s with result := (Config.sentinel 95).setWidth 40, status := 0x05#8 } ∧
    exec (.rlutRd ign 0x00) s =
      .next { s with result := (Config.sentinel 96).setWidth 40, status := 0x05#8 } ∧
    exec (.rlutRd ign 0xB0) s = .next { s with result := 0x100#40, status := 0x05#8 })

/-- R123: RLUT_RD of what ALPHA_RD d read gives 0x100 + d and STATUS 0x01. -/
def Obligations.RomRoundTrip : Prop :=
  ∀ (s : State) (d : Byte) (g g' : BitVec 32), RomsIntact s → d.toNat ≤ 84 →
    ∃ t, exec (.alphaRd g d) s = .next t ∧
      exec (.rlutRd g' (t.result.extractLsb' 0 8)) t =
        .next { t with result := BitVec.ofNat 40 (0x100 + d.toNat), status := 0x01#8 }

/-- R124: a ROM read changes no ROM, its outcome depends on its operand and the ROM alone, and repeating it
gives the same RESULT and STATUS. -/
def Obligations.RomReadsRepeat : Prop :=
  ∀ (i : Instr), (∃ g x, i = .alphaRd g x) ∨ (∃ g c, i = .rlutRd g c) →
    ∀ s s' : State, s.alpha = s'.alpha → s.rlut = s'.rlut →
      ∃ t t', exec i s = .next t ∧ exec i s' = .next t' ∧ t.result = t'.result ∧ t.status = t'.status ∧
        t.alpha = s.alpha ∧ t.rlut = s.rlut ∧ exec i t = .next t

/-! ### RESULT and STATUS -/

/-- R171: a reserved word leaves RESULT, the ROMs and everything else but STATUS, which becomes 0x03, whatever
its operand. -/
def Obligations.ReservedCommand : Prop :=
  ∀ (c : Byte) (o : Word40) (s : State), c ≠ 0x01#8 → c ≠ 0x02#8 → c ≠ 0x03#8 → c ≠ 0x04#8 →
    (∃ why, decode (c ++ o) = .reserved why) ∧
    runWord (c ++ o) s = .next { s with status := 0x03#8 }

/-- R170: every step goes on, every command writes VALID, and STATUS never changes what a command does. That a
step with no pending action, and an advance of no running call, go on as well is the model's choice
(notes/assumptions/13, 7). -/
def Obligations.NothingStops : Prop :=
  (∀ s : State, ∃ t, step s = .next t) ∧
  (∀ (n : Nat) (s : State), SafeRun n s) ∧
  (∀ (w : Word48) (s : State), ∃ t, runWord w s = .next t ∧ t.status.getLsbD 0 = true) ∧
  (∀ (w : Word48) (s : State) (st : Byte), runWord w { s with status := st } = runWord w s)

/-- R26: every command replaces all of STATUS: what STATUS holds after a command does not depend on what it
held, and a field the command does not set is 0. With it (R56, legal commands), RESULT depends on nothing but
the word and the ROMs. -/
def Obligations.CommandsAreIndependent : Prop :=
  (∀ (w : Word48) (s s' t t' : State), s.alpha = s'.alpha → s.rlut = s'.rlut →
    runWord w s = .next t → runWord w s' = .next t' → t.status = t'.status) ∧
  (∀ (i : Instr) (s t : State), exec i s = .next t →
    t.status.getLsbD 1 = false ∧ t.status.extractLsb' 5 3 = 0#3 ∧
    ((∀ c0 c1 c2 c3 c4, i ≠ .dec32 c0 c1 c2 c3 c4) → t.status.getLsbD 3 = false) ∧
    ((∀ c0 c1 c2 c3 c4, i ≠ .dec32 c0 c1 c2 c3 c4) → (∀ g c, i ≠ .rlutRd g c) → t.status.getLsbD 2 = false) ∧
    ((∀ g x, i ≠ .alphaRd g x) → t.status.getLsbD 4 = false)) ∧
  (∀ (w : Word48) (i : Instr) (s s' t t' : State), decode w = .command i →
    s.alpha = s'.alpha → s.rlut = s'.rlut →
    runWord w s = .next t → runWord w s' = .next t' → t.result = t'.result)

/-- The frame of every command (00 R10, 20 R53): only RESULT and STATUS may change. -/
def Obligations.CommandFrame : Prop :=
  (∀ (i : Instr) (s t : State), exec i s = .next t →
    t.alpha = s.alpha ∧ t.rlut = s.rlut ∧ t.port = s.port ∧ t.delivered = s.delivered ∧ t.procs = s.procs) ∧
  (∀ (w : Word48) (s t : State), runWord w s = .next t →
    t.alpha = s.alpha ∧ t.rlut = s.rlut ∧ t.port = s.port ∧ t.delivered = s.delivered ∧ t.procs = s.procs)

/-- R27: STATUS[7:5] stay 0 over every step, and each command writes zeros to the RESULT bits it does not
use. -/
def Obligations.UnusedBitsReadZero : Prop :=
  (State.reset.status.extractLsb' 5 3 = 0#3) ∧
  (∀ s t : State, s.status.extractLsb' 5 3 = 0#3 → step s = .next t → t.status.extractLsb' 5 3 = 0#3) ∧
  (∀ (w : Word48) (s t : State), runWord w s = .next t → t.status.extractLsb' 5 3 = 0#3) ∧
  (∀ (c0 c1 c2 c3 c4 : Byte) (s t : State), exec (.dec32 c0 c1 c2 c3 c4) s = .next t →
    t.result.extractLsb' 32 8 = 0#8) ∧
  (∀ (g : BitVec 32) (x : Byte) (s t : State), exec (.alphaRd g x) s = .next t →
    t.result.extractLsb' 8 32 = 0#32) ∧
  (∀ (g : BitVec 32) (c : Byte) (s t : State), exec (.rlutRd g c) s = .next t →
    t.result.extractLsb' 9 31 = 0#31)

/-- R174: which conditions can stand together in one command's STATUS. -/
def Obligations.ConditionsTogether : Prop :=
  (∀ (w : Word48) (s t : State), runWord w s = .next t → t.status.getLsbD 1 = true → t.status = 0x03#8) ∧
  (∀ (w : Word48) (s t : State), runWord w s = .next t → t.status.getLsbD 4 = true →
    t.status = 0x11#8 ∧ ∃ g x, decode w = .command (.alphaRd g x)) ∧
  (∀ (w : Word48) (s t : State), runWord w s = .next t → t.status.getLsbD 2 = true →
    (∃ c0 c1 c2 c3 c4, decode w = .command (.dec32 c0 c1 c2 c3 c4)) ∨
      ∃ g c, decode w = .command (.rlutRd g c)) ∧
  (∀ s : State, RomsIntact s → ∃ w t, runWord w s = .next t ∧ t.status = 0x0D#8)

/-! ### Steps and the host interface -/

/-- A step whose next host action issues a word that decodes runs that command on the state without the
action, and hands the response to the issuer; a reserved word leaves RESULT and the ROMs, writes STATUS 0x03 and
answers its issuer so (R171, R140); the harness's state does either for the word it is given. -/
def Obligations.StepRunsDecodedCommand : Prop :=
  (∀ (s : State) (h : HostId) (w : Word48) (rest : List HostAction) (i : Instr),
    s.port = .issue h w :: rest → decode w = .command i →
    step s = match exec i { s with port := rest } with
      | .next t => .next { t with delivered := .response h t.result t.status :: t.delivered }
      | .fault r => .fault r
      | .refused r => .refused r) ∧
  (∀ (s : State) (w : Word48) (i : Instr), decode w = .command i →
    step (s.withFetchWord 48 w.toNat) = match exec i s with
      | .next t => .next { t with delivered := .response 0 t.result t.status :: t.delivered }
      | .fault r => .fault r
      | .refused r => .refused r) ∧
  (∀ (s : State) (h : HostId) (w : Word48) (rest : List HostAction) (why : Reserved),
    s.port = .issue h w :: rest → decode w = .reserved why →
    step s = .next { s with
      port := rest, status := 0x03#8, delivered := .response h s.result 0x03#8 :: s.delivered }) ∧
  (∀ (s : State) (w : Word48) (why : Reserved), decode w = .reserved why →
    step (s.withFetchWord 48 w.toNat) =
      .next { s with status := 0x03#8, delivered := .response 0 s.result 0x03#8 :: s.delivered })

/-- R54, R140: a command's response holds the RESULT and the STATUS it left, goes to the host that issued it,
and is the only thing delivered in that step. -/
def Obligations.ResponseGoesToIssuer : Prop :=
  ∀ (s : State) (h : HostId) (w : Word48) (rest : List HostAction), s.port = .issue h w :: rest →
    ∃ t, step s = .next t ∧ t.delivered = .response h t.result t.status :: s.delivered ∧
      t.port = rest ∧ t.procs = s.procs

/-- R140, R56: a read of RESULT or STATUS hands the host the register as it stands and changes nothing else;
with no action pending the block is idle and holds RESULT and STATUS (R185): that the whole state stays as it is
then is the model's choice (notes/assumptions/13). -/
def Obligations.HostReads : Prop :=
  (∀ (s : State) (h : HostId) (rest : List HostAction), s.port = .readResult h :: rest →
    step s = .next { s with port := rest, delivered := .resultRead h s.result :: s.delivered }) ∧
  (∀ (s : State) (h : HostId) (rest : List HostAction), s.port = .readStatus h :: rest →
    step s = .next { s with port := rest, delivered := .statusRead h s.status :: s.delivered }) ∧
  (∀ s : State, s.port = [] → step s = .next s)

/-- R190, R191, R30: reset sets RESULT and STATUS to 0 and leaves the ROMs; a command in flight writes nothing
and has no response; the state right after reset is that of R30. That reset leaves what the hosts hold, their
deliveries and procedures too, is read from these rules (notes/assumptions/14). -/
def Obligations.ResetState : Prop :=
  (State.reset.alpha = alphaRom ∧ State.reset.rlut = rlutRom ∧ State.reset.result = 0x0000000000#40 ∧
    State.reset.status = 0x00#8) ∧
  (∀ (s : State) (rest : List HostAction), s.port = .reset :: rest →
    step s = .next { s with port := rest, result := 0#40, status := 0#8 }) ∧
  (∀ (s : State) (h : HostId) (w : Word48) (rest : List HostAction), s.port = .resetInFlight h w :: rest →
    step s = .next { s with port := rest, result := 0#40, status := 0#8 })

/-- R183, R56: two commands give each host the same response in either order. -/
def Obligations.OrderOfHostsDoesNotMatter : Prop :=
  ∀ (s : State) (h h' : HostId) (w w' : Word48) (i i' : Instr) (rest : List HostAction),
    decode w = .command i → decode w' = .command i' →
    ∃ t t' r st r' st',
      Sys2Proof.core.run 2 { s with port := .issue h w :: .issue h' w' :: rest } = .next t ∧
      Sys2Proof.core.run 2 { s with port := .issue h' w' :: .issue h w :: rest } = .next t' ∧
      t.delivered = .response h' r' st' :: .response h r st :: s.delivered ∧
      t'.delivered = .response h r st :: .response h' r' st' :: s.delivered ∧
      t.result = r' ∧ t.status = st' ∧ t'.result = r ∧ t'.status = st

/-- The invariant of the machine holds right after reset. -/
def Obligations.InvariantAtReset : Prop := State.reset.Inv

/-- Every step keeps the invariant: intact ROMs, a legal STATUS that agrees with RESULT, responses a command
can give, and host procedures whose progress and results are those of their arguments. -/
def Obligations.InvariantKeptByStep : Prop :=
  ∀ s t : State, s.Inv → step s = .next t → t.Inv

/-! ### The host sequencer -/

/-- R143, R144: the two early returns of ENCODE, both before any command is issued, and that nothing else is
an error. -/
def Obligations.EncodeChecks : Prop :=
  (∀ strict autoPad : Bool, seqEncode [] autoPad = .value [] ∧
    (Call.encode [] autoPad).start strict = .returned (.value [])) ∧
  (∀ (strict : Bool) (data : List Byte), data.length % 4 ≠ 0 → seqEncode data false = .seqError .eLen4 ∧
    (Call.encode data false).start strict = .returned (.seqError .eLen4)) ∧
  (∀ (data : List Byte) (autoPad : Bool), data.length % 4 = 0 ∨ autoPad = true →
    ∃ out, seqEncode data autoPad = .value out)

/-- R146 to R148: the characters of ENCODE: those of the frames of the zero-padded data, in order, then one
marker `0x30 + p` when p > 0; the length; every character, the marker too, is an alphabet code. -/
def Obligations.EncodeOutput : Prop :=
  ∀ (data : List Byte) (autoPad : Bool) (out : List Byte), seqEncode data autoPad = .value out →
    let p := (4 - data.length % 4) % 4
    let work := data ++ List.replicate p 0#8
    (p ≤ 3 ∧ work.length % 4 = 0) ∧
    out.length = 5 * ((data.length + p) / 4) + (if p > 0 then 1 else 0) ∧
    (∀ f k : Nat, k < 5 → 4 * f < work.length →
      out[5 * f + k]? = some (alphaRom.get (Fin.ofNat 85
        (((work.getD (4 * f) 0#8).toNat * 2 ^ 24 + (work.getD (4 * f + 1) 0#8).toNat * 2 ^ 16 +
          (work.getD (4 * f + 2) 0#8).toNat * 2 ^ 8 + (work.getD (4 * f + 3) 0#8).toNat) /
            85 ^ (4 - k))))) ∧
    (p > 0 → out.getLast? = some (BitVec.ofNat 8 (0x30 + p)) ∧
      alphaRom.get (Fin.ofNat 85 p) = BitVec.ofNat 8 (0x30 + p)) ∧
    (∀ c ∈ out, ∃ d, alphaRom.get d = c)

/-- R150, R151, R152: how DECODE classifies a text by its length and marker, and its errors, in their order
and before any command is issued. -/
def Obligations.DecodeChecks : Prop :=
  ∀ (strict : Bool) (text : List Byte),
    (text.length % 5 ≠ 0 → (text.length - 1) % 5 ≠ 0 → seqDecode strict text = .seqError .eLen5 ∧
      (Call.decode text).start strict = .returned (.seqError .eLen5)) ∧
    (∀ (front : List Byte) (m : Byte), text = front ++ [m] → front.length % 5 = 0 →
      (m ≠ 0x31#8 ∧ m ≠ 0x32#8 ∧ m ≠ 0x33#8 → seqDecode strict text = .seqError .ePadChr ∧
        (Call.decode text).start strict = .returned (.seqError .ePadChr)) ∧
      (m = 0x31#8 ∨ m = 0x32#8 ∨ m = 0x33#8 →
        (front = [] → seqDecode strict text = .seqError .ePadUnder ∧
          (Call.decode text).start strict = .returned (.seqError .ePadUnder)) ∧
        (front ≠ [] → decodePlan text = .go (m.toNat - 0x30) (groupsOf front) ∧
          m.toNat - 0x30 ≤ 4 * (groupsOf front).length))) ∧
    (text.length % 5 = 0 → decodePlan text = .go 0 (groupsOf text)) ∧
    ¬(text.length % 5 = 0 ∧ 1 ≤ text.length ∧ (text.length - 1) % 5 = 0)

/-- R153, R155, R156: the bytes of DECODE: those of the groups' frames, in order and big-endian, less the last
p, whatever those are, as the rule's example shows. -/
def Obligations.DecodeOutput : Prop :=
  (∀ strict : Bool, seqDecode strict [0x25, 0x6E, 0x53, 0x63, 0x30, 0x33] = .value [0xFF]) ∧
  (∀ (strict : Bool) (text out : List Byte), seqDecode strict text = .value out →
    let p := if text.length % 5 = 0 then 0 else (text.getLast?.getD 0#8).toNat - 0x30
    out.length = 4 * (text.length / 5) - p ∧ p ≤ 4 * (text.length / 5) ∧
    (∀ g b : Nat, b < 4 → 4 * g + b < out.length →
      out[4 * g + b]? = some (BitVec.ofNat 8
        (groupValue rlutRom (text.getD (5 * g) 0#8) (text.getD (5 * g + 1) 0#8) (text.getD (5 * g + 2) 0#8)
          (text.getD (5 * g + 3) 0#8) (text.getD (5 * g + 4) 0#8) % 2 ^ 32 / 2 ^ (8 * (3 - b))))))

/-- R154: without STRICT_DECODE a text that passes the checks decodes to the bytes of the DEC32 values, less
the last p; with it, it decodes to the same or fails with E_BADCHR, the latter exactly when a group character
is not an alphabet code. -/
def Obligations.StrictDecode : Prop :=
  ∀ (text : List Byte) (p : Nat) (groups : List Word40), decodePlan text = .go p groups →
    seqDecode false text = .value ((decodedBytes groups).take (4 * groups.length - p)) ∧
    (seqDecode true text = seqDecode false text ∨ seqDecode true text = .seqError .eBadChr) ∧
    (seqDecode true text = .seqError .eBadChr ↔
      ∃ (n : Nat) (c : Byte), n < 5 * (text.length / 5) ∧ text[n]? = some c ∧ ∀ d, alphaRom.get d ≠ c)

/-- R172: the error codes and when each is raised. -/
def Obligations.SequencerErrors : Prop :=
  (∀ out, (SeqResult.value out).code = 0) ∧
  ([SeqError.eLen4, .eLen5, .ePadChr, .ePadUnder, .eBadChr].map SeqError.code = [1, 2, 3, 4, 5]) ∧
  (∀ (data : List Byte) (autoPad : Bool) (e : SeqError), seqEncode data autoPad = .seqError e ↔
    e = .eLen4 ∧ data.length % 4 ≠ 0 ∧ autoPad = false) ∧
  (∀ (strict : Bool) (text : List Byte),
    (seqDecode strict text ≠ .seqError .eLen4) ∧
    (seqDecode strict text = .seqError .eLen5 ↔ text.length % 5 ≠ 0 ∧ (text.length - 1) % 5 ≠ 0) ∧
    (seqDecode strict text = .seqError .ePadChr ↔ text.length % 5 = 1 ∧
      ∃ m, text.getLast? = some m ∧ m ≠ 0x31#8 ∧ m ≠ 0x32#8 ∧ m ≠ 0x33#8) ∧
    (seqDecode strict text = .seqError .ePadUnder ↔ text = [0x31#8] ∨ text = [0x32#8] ∨ text = [0x33#8]) ∧
    (seqDecode strict text = .seqError .eBadChr ↔ strict = true ∧ (∃ p groups, decodePlan text = .go p groups) ∧
      ∃ c ∈ text, ∀ d, alphaRom.get d ≠ c))

/-- R159: the three round-trip laws, for every STRICT_DECODE and every SENTINEL. -/
def Obligations.SequencerRoundTrip : Prop :=
  (∀ (strict : Bool) (b : List Byte), b.length % 4 = 0 →
    ∃ t, seqEncode b false = .value t ∧ seqDecode strict t = .value b) ∧
  (∀ (strict : Bool) (b : List Byte), ∃ t, seqEncode b true = .value t ∧ seqDecode strict t = .value b) ∧
  (∀ (strict autoPad : Bool), seqEncode [] autoPad = .value [] ∧ seqDecode strict [] = .value [])

/-- R160: a text that decodes and does not come back, and the source's worked example (95 S1). -/
def Obligations.DecodeThenEncodeMayDiffer : Prop :=
  seqDecode false [0x25, 0x6E, 0x53, 0x63, 0x30, 0x33] = .value [0xFF] ∧
  seqEncode [0xFF] true = .value [0x40, 0x40, 0x72, 0x33, 0x30, 0x33] ∧
  seqEncode [0x86, 0x4F, 0xD2, 0x6F, 0xB5, 0x59, 0xF7, 0x5B] false =
    .value [0x48, 0x65, 0x6C, 0x6C, 0x6F, 0x57, 0x6F, 0x72, 0x6C, 0x64]

/-- R196: how many commands each procedure issues, when no error comes first. -/
def Obligations.SequencerCommandCounts : Prop :=
  (∀ (data : List Byte) (autoPad : Bool) (p : Nat) (ws : List Word48),
    (Call.encode data autoPad).plan = .go p ws →
    ws.length = (data.length + p) / 4 ∧ ∀ w ∈ ws, ∃ v, decode w = .command (.enc32 0#8 v)) ∧
  (∀ (text : List Byte) (p : Nat) (ws : List Word48), (Call.decode text).plan = .go p ws →
    ws.length = text.length / 5 ∧ ∀ w ∈ ws, ∃ c0 c1 c2 c3 c4, decode w = .command (.dec32 c0 c1 c2 c3 c4))

/-- R157: a call whose checks fail returns its error in the step that starts it, with no command issued: the
block's registers stay and nothing is delivered. -/
def Obligations.ErrorsIssueNoCommand : Prop :=
  ∀ (s : State) (h : HostId) (c : Call) (e : SeqError) (rest : List HostAction),
    s.port = .call h c :: rest → c.plan = .fail e →
    step s = .next { s with port := rest, procs := s.procs ++ [⟨h, c, .returned (.seqError e)⟩] }

/-- R141: what a running call has done and will do changes only in its own `advance` steps, and what such a
step does to it depends on the call and the ROMs, not on what other hosts left in RESULT and STATUS. The steps of
other actions include reset and a reset that abandons a command: that these leave a call as it is, to issue its
command again, is read from R191 (notes/assumptions/14). -/
def Obligations.SequencerIsIsolated : Prop :=
  (∀ (s t : State) (k : Nat) (a : HostAction) (rest : List HostAction), s.port = a :: rest →
    a ≠ .advance k → step s = .next t → k < s.procs.length → t.procs[k]? = s.procs[k]?) ∧
  (∀ (s s' t t' : State) (k : Nat) (rest rest' : List HostAction),
    s.port = .advance k :: rest → s'.port = .advance k :: rest' → s.Inv → s'.Inv →
    s.procs[k]? = s'.procs[k]? → step s = .next t → step s' = .next t' → t.procs[k]? = t'.procs[k]?)

/-- R158, R141: in every run, whatever the hosts do in between, a call that has returned has returned the
value of its arguments. Calls are recorded in a field of the model's own (notes/assumptions/8). -/
def Obligations.EveryCallReturnsItsValue : Prop :=
  ∀ (n : Nat) (s t : State) (k : Nat) (p : Proc) (r : SeqResult), s.Inv →
    Sys2Proof.core.run n s = .next t → t.procs[k]? = some p → p.phase = .returned r →
    r = p.call.value Config.strictDecode

/-- A call whose checks pass returns its value after one step for the call and one for each of its commands.
What is delivered is one response for each of its words, in order, to the caller, and each is what the block
answers to that word; RESULT and STATUS are those of the last (R140, R142, R149, R196; what is recorded where is
notes/assumptions/1 and 8). -/
def Obligations.CallRunsToCompletion : Prop :=
  ∀ (s : State) (h : HostId) (c : Call) (p : Nat) (ws : List Word48) (rest : List HostAction), RomsIntact s →
    c.plan = .go p ws →
    s.port = .call h c :: (List.replicate ws.length (.advance s.procs.length) ++ rest) →
    ∃ (t : State) (answers : List (Word40 × Byte)),
      Sys2Proof.core.run (1 + ws.length) s = .next t ∧ t.port = rest ∧
      t.procs = s.procs ++ [⟨h, c, .returned (c.value Config.strictDecode)⟩] ∧
      answers.length = ws.length ∧
      t.delivered = (answers.map (fun a => Delivery.response h a.1 a.2)).reverse ++ s.delivered ∧
      (∀ (n : Nat) (w : Word48), ws[n]? = some w →
        ∃ u, runWord w s = .next u ∧ answers[n]? = some (u.result, u.status)) ∧
      (t.result, t.status) = answers.getLast?.getD (s.result, s.status) ∧
      t.alpha = s.alpha ∧ t.rlut = s.rlut

/-- A step that lets a running call go on issues the call's next word: RESULT and STATUS are those the word
leaves, the response goes to the caller, and the call takes that response (R140, R142, R149; that one action does
all this, and where it is recorded, is notes/assumptions/1 and 8). -/
def Obligations.AdvanceIssuesTheNextCommand : Prop :=
  ∀ (s : State) (k : Nat) (h : HostId) (c : Call) (pad : Nat) (w : Word48) (todo : List Word48)
    (out : List Byte) (bad : Bool) (rest : List HostAction), s.port = .advance k :: rest →
    s.procs[k]? = some ⟨h, c, .running pad (w :: todo) out bad⟩ →
    ∃ u t, runWord w s = .next u ∧ step s = .next t ∧
      t = { s with
        port := rest, result := u.result, status := u.status,
        delivered := .response h u.result u.status :: s.delivered,
        procs := s.procs.set k ⟨h, c, c.phase Config.strictDecode pad todo
          (out ++ c.output u.result) (bad || c.flags u.status)⟩ }
end

