-- ==== Sys2Proof/Laws/Bits.lean ====
section
/-! SUPPORT. Concatenation and bit fields as arithmetic on naturals (00 R7), so that `omega` closes goals
about them. -/

namespace Sys2Proof.Laws

/-- `{a, b}` as a number. -/
theorem toNat_append {n m : Nat} (x : BitVec n) (y : BitVec m) :
    (x ++ y).toNat = x.toNat * 2 ^ m + y.toNat := by
  rw [BitVec.toNat_append, ← Nat.shiftLeft_add_eq_or_of_lt y.isLt, Nat.shiftLeft_eq]

/-- `v[hi:lo]` as a number. -/
theorem toNat_field {n : Nat} (v : BitVec n) (lo len : Nat) :
    (v.extractLsb' lo len).toNat = v.toNat / 2 ^ lo % 2 ^ len := by
  rw [BitVec.extractLsb'_toNat, Nat.shiftRight_eq_div_pow]

/-- A field equals a value when the numbers do. -/
theorem field_eq_iff {n lo len : Nat} (v : BitVec n) (x : BitVec len) :
    v.extractLsb' lo len = x ↔ v.toNat / 2 ^ lo % 2 ^ len = x.toNat := by
  rw [← BitVec.toNat_inj, toNat_field]

/-- Three fields. -/
theorem toNat_append₃ {a b c : Nat} (x : BitVec a) (y : BitVec b) (z : BitVec c) :
    (x ++ y ++ z).toNat = (x.toNat * 2 ^ b + y.toNat) * 2 ^ c + z.toNat := by
  simp only [toNat_append]

end Sys2Proof.Laws
end

