-- ==== Sys2Proof/Laws/Operands.lean ====
section
/-! SUPPORT. Packing as arithmetic (20 R49 to R51), and base-85 digits and values (40 R80, 41 R100). -/

namespace Sys2Proof.Laws

open Sys2Proof.Machine

theorem packGroup_toNat (c0 c1 c2 c3 c4 : Byte) : (packGroup c0 c1 c2 c3 c4).toNat =
    c0.toNat * 2 ^ 32 + c1.toNat * 2 ^ 24 + c2.toNat * 2 ^ 16 + c3.toNat * 2 ^ 8 + c4.toNat := by
  have h : (packGroup c0 c1 c2 c3 c4).toNat = (c0 ++ c1 ++ c2 ++ c3 ++ c4).toNat := rfl
  rw [h]; simp only [toNat_append]; ring

theorem frameOfBytes_toNat (b0 b1 b2 b3 : Byte) : (frameOfBytes b0 b1 b2 b3).toNat =
    b0.toNat * 2 ^ 24 + b1.toNat * 2 ^ 16 + b2.toNat * 2 ^ 8 + b3.toNat := by
  have h : (frameOfBytes b0 b1 b2 b3).toNat = (b0 ++ b1 ++ b2 ++ b3).toNat := rfl
  rw [h]; simp only [toNat_append]; ring

theorem charAt_toNat (w : Word40) (k : Fin 5) : (charAt w k).toNat = w.toNat / 2 ^ (32 - 8 * k.val) % 256 := by
  rw [charAt, toNat_field]; rfl

/-- A 40-bit word's characters say all of it. -/
theorem word40_ext {w w' : Word40} (h : ∀ k : Fin 5, charAt w k = charAt w' k) : w = w' := by
  have e : ∀ k : Fin 5, w.toNat / 2 ^ (32 - 8 * k.val) % 256 = w'.toNat / 2 ^ (32 - 8 * k.val) % 256 :=
    fun k => by rw [← charAt_toNat, ← charAt_toNat, h]
  have e0 := e 0; have e1 := e 1; have e2 := e 2; have e3 := e 3; have e4 := e 4
  simp only [Fin.val_zero, Fin.val_one, Fin.val_two, Fin.isValue] at e0 e1 e2
  have v3 : (3 : Fin 5).val = 3 := rfl
  have v4 : (4 : Fin 5).val = 4 := rfl
  rw [v3] at e3; rw [v4] at e4
  have := w.isLt; have := w'.isLt
  apply BitVec.eq_of_toNat_eq
  omega

/-- Character k of a packed group is its k-th character (20 R51). -/
theorem charAt_packGroup (c0 c1 c2 c3 c4 : Byte) :
    charAt (packGroup c0 c1 c2 c3 c4) 0 = c0 ∧ charAt (packGroup c0 c1 c2 c3 c4) 1 = c1 ∧
    charAt (packGroup c0 c1 c2 c3 c4) 2 = c2 ∧ charAt (packGroup c0 c1 c2 c3 c4) 3 = c3 ∧
    charAt (packGroup c0 c1 c2 c3 c4) 4 = c4 := by
  have h := packGroup_toNat c0 c1 c2 c3 c4
  have h0 := c0.isLt; have h1 := c1.isLt; have h2 := c2.isLt; have h3 := c3.isLt; have h4 := c4.isLt
  refine ⟨?_, ?_, ?_, ?_, ?_⟩ <;> apply BitVec.eq_of_toNat_eq <;> rw [charAt_toNat, h]
  · show _ / 2 ^ 32 % 256 = _; omega
  · show _ / 2 ^ 24 % 256 = _; omega
  · show _ / 2 ^ 16 % 256 = _; omega
  · show _ / 2 ^ 8 % 256 = _; omega
  · show _ / 2 ^ 0 % 256 = _; omega

/-- The characters of a packed group are its characters. -/
@[simp] theorem groupChars_packGroup (c0 c1 c2 c3 c4 : Byte) :
    groupChars (packGroup c0 c1 c2 c3 c4) = [c0, c1, c2, c3, c4] := by
  obtain ⟨a, b, c, d, e⟩ := charAt_packGroup c0 c1 c2 c3 c4
  simp only [groupChars, a, b, c, d, e]

/-- Packing a word's characters gives the word. -/
theorem packGroup_charAt (w : Word40) :
    packGroup (charAt w 0) (charAt w 1) (charAt w 2) (charAt w 3) (charAt w 4) = w := by
  obtain ⟨a, b, c, d, e⟩ := charAt_packGroup (charAt w 0) (charAt w 1) (charAt w 2) (charAt w 3) (charAt w 4)
  apply word40_ext
  intro k
  fin_cases k
  exacts [a, b, c, d, e]

/-- The bytes of a frame of bytes are those bytes (20 R49). -/
@[simp] theorem bytesOfFrame_frameOfBytes (b0 b1 b2 b3 : Byte) :
    bytesOfFrame (frameOfBytes b0 b1 b2 b3) = [b0, b1, b2, b3] := by
  have h := frameOfBytes_toNat b0 b1 b2 b3
  have h0 := b0.isLt; have h1 := b1.isLt; have h2 := b2.isLt; have h3 := b3.isLt
  simp only [bytesOfFrame, List.cons.injEq, and_true, field_eq_iff, h]
  refine ⟨?_, ?_, ?_, ?_⟩ <;> omega

@[simp] theorem bytesOfFrame_length (v : Frame) : (bytesOfFrame v).length = 4 := rfl
@[simp] theorem groupChars_length (w : Word40) : (groupChars w).length = 5 := rfl

@[simp] theorem frameOfWord40_word40OfFrame (v : Frame) : frameOfWord40 (word40OfFrame v) = v := by
  apply BitVec.eq_of_toNat_eq
  rw [frameOfWord40, toNat_field, word40OfFrame, BitVec.toNat_setWidth]
  have := v.isLt
  omega

/-- Five base-85 digits of a number below 85^5 make up the number (40 R80, R83). -/
theorem digits_sum {n : Nat} (h : n < 85 ^ 5) :
    (n / 85 ^ 4 % 85) * 85 ^ 4 + (n / 85 ^ 3 % 85) * 85 ^ 3 + (n / 85 ^ 2 % 85) * 85 ^ 2 +
      (n / 85 % 85) * 85 + n % 85 = n := by omega

/-- Five digits below 85 are the digits of their value (41 R105). -/
theorem digits_of_sum {d0 d1 d2 d3 d4 : Nat} (h0 : d0 < 85) (h1 : d1 < 85) (h2 : d2 < 85) (h3 : d3 < 85)
    (h4 : d4 < 85) {n : Nat} (h : d0 * 85 ^ 4 + d1 * 85 ^ 3 + d2 * 85 ^ 2 + d3 * 85 + d4 = n) :
    n / 85 ^ 4 % 85 = d0 ∧ n / 85 ^ 3 % 85 = d1 ∧ n / 85 ^ 2 % 85 = d2 ∧ n / 85 % 85 = d3 ∧
      n % 85 = d4 := by
  refine ⟨?_, ?_, ?_, ?_, ?_⟩ <;> omega

end Sys2Proof.Laws
end

