-- ==== Sys2Proof/Laws/Encoding.lean ====
section
/-! SUPPORT. The command word of each command as a number, and the decoder by cases on CMD. -/

namespace Sys2Proof.Laws

variable (w : Word48)

theorem encode_enc32_toNat (g : Byte) (v : Frame) :
    (encode (.enc32 g v)).toNat = 1 * 2 ^ 40 + g.toNat * 2 ^ 32 + v.toNat := by
  have h : (encode (.enc32 g v)).toNat = (0x01#8 ++ g ++ v).toNat := rfl
  rw [h, toNat_append₃]; simp only [BitVec.toNat_ofNat]; omega

theorem encode_dec32_toNat (c0 c1 c2 c3 c4 : Byte) :
    (encode (.dec32 c0 c1 c2 c3 c4)).toNat = 2 * 2 ^ 40 + c0.toNat * 2 ^ 32 + c1.toNat * 2 ^ 24 +
      c2.toNat * 2 ^ 16 + c3.toNat * 2 ^ 8 + c4.toNat := by
  have h : (encode (.dec32 c0 c1 c2 c3 c4)).toNat = (0x02#8 ++ c0 ++ c1 ++ c2 ++ c3 ++ c4).toNat := rfl
  rw [h]; simp only [toNat_append, BitVec.toNat_ofNat]; omega

theorem encode_alphaRd_toNat (g : BitVec 32) (x : Byte) :
    (encode (.alphaRd g x)).toNat = 3 * 2 ^ 40 + g.toNat * 2 ^ 8 + x.toNat := by
  have h : (encode (.alphaRd g x)).toNat = (0x03#8 ++ g ++ x).toNat := rfl
  rw [h, toNat_append₃]; simp only [BitVec.toNat_ofNat]; omega

theorem encode_rlutRd_toNat (g : BitVec 32) (c : Byte) :
    (encode (.rlutRd g c)).toNat = 4 * 2 ^ 40 + g.toNat * 2 ^ 8 + c.toNat := by
  have h : (encode (.rlutRd g c)).toNat = (0x04#8 ++ g ++ c).toNat := rfl
  rw [h, toNat_append₃]; simp only [BitVec.toNat_ofNat]; omega

theorem rsv_eq_iff (x : BitVec 4) : rsv w = x ↔ w.toNat / 2 ^ 44 = x.toNat := by
  rw [rsv, field_eq_iff]; have := w.isLt; omega

theorem op_eq_iff (x : BitVec 4) : op w = x ↔ w.toNat / 2 ^ 40 % 2 ^ 4 = x.toNat := field_eq_iff _ _

theorem cmd_eq_iff (x : Byte) : cmd w = x ↔ w.toNat / 2 ^ 40 = x.toNat := by
  rw [cmd, field_eq_iff]; have := w.isLt; omega

/-- CMD fixes RSV and OP. -/
theorem rsv_op_of_cmd {x : Byte} (h : cmd w = x) :
    rsv w = x.extractLsb' 4 4 ∧ op w = x.extractLsb' 0 4 := by
  rw [cmd_eq_iff] at h; rw [rsv_eq_iff, op_eq_iff, toNat_field, toNat_field]
  have := x.isLt; omega

theorem decode_of_cmd_enc32 (h : cmd w = 0x01#8) :
    decode w = .command (.enc32 (w.extractLsb' 32 8) (w.extractLsb' 0 32)) := by
  obtain ⟨h1, h2⟩ := rsv_op_of_cmd w h
  simp [decode, h1, h2]

theorem decode_of_cmd_dec32 (h : cmd w = 0x02#8) :
    decode w = .command (.dec32 (w.extractLsb' 32 8) (w.extractLsb' 24 8) (w.extractLsb' 16 8)
      (w.extractLsb' 8 8) (w.extractLsb' 0 8)) := by
  obtain ⟨h1, h2⟩ := rsv_op_of_cmd w h
  simp [decode, h1, h2]

theorem decode_of_cmd_alphaRd (h : cmd w = 0x03#8) :
    decode w = .command (.alphaRd (w.extractLsb' 8 32) (w.extractLsb' 0 8)) := by
  obtain ⟨h1, h2⟩ := rsv_op_of_cmd w h
  simp [decode, h1, h2]

theorem decode_of_cmd_rlutRd (h : cmd w = 0x04#8) :
    decode w = .command (.rlutRd (w.extractLsb' 8 32) (w.extractLsb' 0 8)) := by
  obtain ⟨h1, h2⟩ := rsv_op_of_cmd w h
  simp [decode, h1, h2]

/-- A word that decodes has one of the four CMD bytes. -/
theorem cmd_of_decode {i : Instr} (h : decode w = .command i) :
    cmd w = 0x01#8 ∨ cmd w = 0x02#8 ∨ cmd w = 0x03#8 ∨ cmd w = 0x04#8 := by
  simp only [cmd_eq_iff]
  unfold decode at h
  by_cases h0 : rsv w = 0#4
  · rw [rsv_eq_iff] at h0
    have hr := (rsv_eq_iff w 0#4).mpr h0
    have hop : op w = 1#4 ∨ op w = 2#4 ∨ op w = 3#4 ∨ op w = 4#4 := by
      simp only [hr, ne_eq, not_true_eq_false, if_false] at h
      by_contra hc
      push Not at hc
      simp [hc.1, hc.2.1, hc.2.2.1, hc.2.2.2] at h
    simp only [op_eq_iff, BitVec.toNat_ofNat] at hop
    simp only [BitVec.toNat_ofNat] at h0 ⊢
    omega
  · simp [h0] at h

/-- A word whose CMD is none of the four is reserved. -/
theorem decode_reserved (h1 : cmd w ≠ 0x01#8) (h2 : cmd w ≠ 0x02#8) (h3 : cmd w ≠ 0x03#8)
    (h4 : cmd w ≠ 0x04#8) : ∃ why, decode w = .reserved why := by
  cases h : decode w with
  | reserved why => exact ⟨why, rfl⟩
  | command i =>
    rcases cmd_of_decode w h with c | c | c | c
    exacts [absurd c h1, absurd c h2, absurd c h3, absurd c h4]

theorem cmd_append (c : Byte) (o : Word40) : cmd (c ++ o) = c := by
  rw [cmd_eq_iff]
  have h : (c ++ o : Word48).toNat = c.toNat * 2 ^ 40 + o.toNat := toNat_append c o
  have := o.isLt
  omega

end Sys2Proof.Laws
end

