-- ==== Sys2Proof/Laws/State.lean ====
section
/-! SUPPORT. One lemma for each field and each update of `State`, so that no later proof unfolds one. -/

namespace Sys2Proof.Machine

variable (s : State)

/-! ### `State.complete` -/

@[simp] theorem State.complete_alpha (r : Word40) (c : Conditions) : (s.complete r c).alpha = s.alpha := rfl
@[simp] theorem State.complete_rlut (r : Word40) (c : Conditions) : (s.complete r c).rlut = s.rlut := rfl
@[simp] theorem State.complete_result (r : Word40) (c : Conditions) : (s.complete r c).result = r := rfl
@[simp] theorem State.complete_status (r : Word40) (c : Conditions) : (s.complete r c).status = statusWord c := rfl
@[simp] theorem State.complete_port (r : Word40) (c : Conditions) : (s.complete r c).port = s.port := rfl
@[simp] theorem State.complete_delivered (r : Word40) (c : Conditions) : (s.complete r c).delivered = s.delivered := rfl
@[simp] theorem State.complete_procs (r : Word40) (c : Conditions) : (s.complete r c).procs = s.procs := rfl

/-! ### `State.reservedCommand` -/

@[simp] theorem State.reservedCommand_alpha : s.reservedCommand.alpha = s.alpha := rfl
@[simp] theorem State.reservedCommand_rlut : s.reservedCommand.rlut = s.rlut := rfl
@[simp] theorem State.reservedCommand_result : s.reservedCommand.result = s.result := rfl
@[simp] theorem State.reservedCommand_status : s.reservedCommand.status = 0x03#8 := rfl
@[simp] theorem State.reservedCommand_port : s.reservedCommand.port = s.port := rfl
@[simp] theorem State.reservedCommand_delivered : s.reservedCommand.delivered = s.delivered := rfl
@[simp] theorem State.reservedCommand_procs : s.reservedCommand.procs = s.procs := rfl

/-! ### `State.resetRegisters` -/

@[simp] theorem State.resetRegisters_alpha : s.resetRegisters.alpha = s.alpha := rfl
@[simp] theorem State.resetRegisters_rlut : s.resetRegisters.rlut = s.rlut := rfl
@[simp] theorem State.resetRegisters_result : s.resetRegisters.result = 0#40 := rfl
@[simp] theorem State.resetRegisters_status : s.resetRegisters.status = 0#8 := rfl
@[simp] theorem State.resetRegisters_port : s.resetRegisters.port = s.port := rfl
@[simp] theorem State.resetRegisters_delivered : s.resetRegisters.delivered = s.delivered := rfl
@[simp] theorem State.resetRegisters_procs : s.resetRegisters.procs = s.procs := rfl

/-! ### `State.deliver` -/

@[simp] theorem State.deliver_alpha (d : Delivery) : (s.deliver d).alpha = s.alpha := rfl
@[simp] theorem State.deliver_rlut (d : Delivery) : (s.deliver d).rlut = s.rlut := rfl
@[simp] theorem State.deliver_result (d : Delivery) : (s.deliver d).result = s.result := rfl
@[simp] theorem State.deliver_status (d : Delivery) : (s.deliver d).status = s.status := rfl
@[simp] theorem State.deliver_port (d : Delivery) : (s.deliver d).port = s.port := rfl
@[simp] theorem State.deliver_delivered (d : Delivery) : (s.deliver d).delivered = d :: s.delivered := rfl
@[simp] theorem State.deliver_procs (d : Delivery) : (s.deliver d).procs = s.procs := rfl

/-! ### `State.respond` -/

@[simp] theorem State.respond_alpha (h : HostId) : (s.respond h).alpha = s.alpha := rfl
@[simp] theorem State.respond_rlut (h : HostId) : (s.respond h).rlut = s.rlut := rfl
@[simp] theorem State.respond_result (h : HostId) : (s.respond h).result = s.result := rfl
@[simp] theorem State.respond_status (h : HostId) : (s.respond h).status = s.status := rfl
@[simp] theorem State.respond_port (h : HostId) : (s.respond h).port = s.port := rfl
@[simp] theorem State.respond_delivered (h : HostId) : (s.respond h).delivered = .response h s.result s.status :: s.delivered := rfl
@[simp] theorem State.respond_procs (h : HostId) : (s.respond h).procs = s.procs := rfl

/-! ### `State.startCall` -/

@[simp] theorem State.startCall_alpha (h : HostId) (c : Call) : (s.startCall h c).alpha = s.alpha := rfl
@[simp] theorem State.startCall_rlut (h : HostId) (c : Call) : (s.startCall h c).rlut = s.rlut := rfl
@[simp] theorem State.startCall_result (h : HostId) (c : Call) : (s.startCall h c).result = s.result := rfl
@[simp] theorem State.startCall_status (h : HostId) (c : Call) : (s.startCall h c).status = s.status := rfl
@[simp] theorem State.startCall_port (h : HostId) (c : Call) : (s.startCall h c).port = s.port := rfl
@[simp] theorem State.startCall_delivered (h : HostId) (c : Call) : (s.startCall h c).delivered = s.delivered := rfl
@[simp] theorem State.startCall_procs (h : HostId) (c : Call) : (s.startCall h c).procs = s.procs ++ [⟨h, c, c.start Config.strictDecode⟩] := rfl

/-! ### `State.takeResponse` -/

@[simp] theorem State.takeResponse_alpha (k : Nat) (h : HostId) (c : Call) (pad : Nat) (todo : List Word48) (out : List Byte)
    (bad : Bool) : (s.takeResponse k h c pad todo out bad).alpha = s.alpha := rfl
@[simp] theorem State.takeResponse_rlut (k : Nat) (h : HostId) (c : Call) (pad : Nat) (todo : List Word48) (out : List Byte)
    (bad : Bool) : (s.takeResponse k h c pad todo out bad).rlut = s.rlut := rfl
@[simp] theorem State.takeResponse_result (k : Nat) (h : HostId) (c : Call) (pad : Nat) (todo : List Word48) (out : List Byte)
    (bad : Bool) : (s.takeResponse k h c pad todo out bad).result = s.result := rfl
@[simp] theorem State.takeResponse_status (k : Nat) (h : HostId) (c : Call) (pad : Nat) (todo : List Word48) (out : List Byte)
    (bad : Bool) : (s.takeResponse k h c pad todo out bad).status = s.status := rfl
@[simp] theorem State.takeResponse_port (k : Nat) (h : HostId) (c : Call) (pad : Nat) (todo : List Word48) (out : List Byte)
    (bad : Bool) : (s.takeResponse k h c pad todo out bad).port = s.port := rfl
@[simp] theorem State.takeResponse_delivered (k : Nat) (h : HostId) (c : Call) (pad : Nat) (todo : List Word48) (out : List Byte)
    (bad : Bool) : (s.takeResponse k h c pad todo out bad).delivered = s.delivered := rfl
@[simp] theorem State.takeResponse_procs (k : Nat) (h : HostId) (c : Call) (pad : Nat) (todo : List Word48) (out : List Byte)
    (bad : Bool) : (s.takeResponse k h c pad todo out bad).procs = s.procs.set k ⟨h, c, c.phase Config.strictDecode pad todo (out ++ c.output s.result)
      (bad || c.flags s.status)⟩ := rfl

/-! ### `State.present` -/

@[simp] theorem State.present_alpha (h : HostId) (w : Word48) : (s.present h w).alpha = s.alpha := rfl
@[simp] theorem State.present_rlut (h : HostId) (w : Word48) : (s.present h w).rlut = s.rlut := rfl
@[simp] theorem State.present_result (h : HostId) (w : Word48) : (s.present h w).result = s.result := rfl
@[simp] theorem State.present_status (h : HostId) (w : Word48) : (s.present h w).status = s.status := rfl
@[simp] theorem State.present_port (h : HostId) (w : Word48) : (s.present h w).port = .issue h w :: s.port := rfl
@[simp] theorem State.present_delivered (h : HostId) (w : Word48) : (s.present h w).delivered = s.delivered := rfl
@[simp] theorem State.present_procs (h : HostId) (w : Word48) : (s.present h w).procs = s.procs := rfl

end Sys2Proof.Machine
end

