-- ==== Sys2Proof/Laws/Ops.lean ====
section
/-! SUPPORT. What each shared operation, each command and each host action can do, said once. -/

namespace Sys2Proof.Laws

open Sys2Proof.Machine

/-! ### STATUS -/

@[simp] theorem statusWord_valid (c : Conditions) : (statusWord c).getLsbD 0 = true := by
  rcases c with ⟨a, b, c, d⟩; revert a b c d; decide
@[simp] theorem statusWord_illegal (c : Conditions) : (statusWord c).getLsbD 1 = c.illegal := by
  rcases c with ⟨a, b, c, d⟩; revert a b c d; decide
@[simp] theorem statusWord_invchr (c : Conditions) : (statusWord c).getLsbD 2 = c.invchr := by
  rcases c with ⟨a, b, c, d⟩; revert a b c d; decide
@[simp] theorem statusWord_ovf (c : Conditions) : (statusWord c).getLsbD 3 = c.ovf := by
  rcases c with ⟨a, b, c, d⟩; revert a b c d; decide
@[simp] theorem statusWord_range (c : Conditions) : (statusWord c).getLsbD 4 = c.range := by
  rcases c with ⟨a, b, c, d⟩; revert a b c d; decide
@[simp] theorem statusWord_reserved (c : Conditions) : (statusWord c).extractLsb' 5 3 = 0#3 := by
  rcases c with ⟨a, b, c, d⟩; revert a b c d; decide

@[simp] theorem statusWord_none : statusWord {} = 0x01#8 := by decide
@[simp] theorem statusWord_illegal_only : statusWord { illegal := true } = 0x03#8 := by decide
@[simp] theorem statusWord_range_only : statusWord { range := true } = 0x11#8 := by decide

/-- The values of STATUS that INVCHR and OVF make (10 R25, 41 R100). -/
theorem statusWord_invchr_ovf (a b : Bool) : statusWord { invchr := a, ovf := b } =
    if a then (if b then 0x0D#8 else 0x05#8) else (if b then 0x09#8 else 0x01#8) := by
  revert a b; decide

/-! ### Commands -/

/-- The RESULT a command writes, from the ROMs alone (20 R56). -/
def answerResult (i : Instr) (alpha : Vector Byte 85) (rlut : Vector RlutEntry 128) : Word40 :=
  match i with
  | .enc32 _ v => encFrame alpha v
  | .dec32 c0 c1 c2 c3 c4 => word40OfFrame (BitVec.ofNat 32 (groupValue rlut c0 c1 c2 c3 c4))
  | .alphaRd _ x => if h : x.toNat < 85 then word40OfCode (alphaAt alpha ⟨x.toNat, h⟩) else 0#40
  | .rlutRd _ c => word40OfEntry (rlutAt rlut (rlutIndex c))

/-- The conditions a command reports, from the ROMs alone (20 R56). -/
def answerConditions (i : Instr) (rlut : Vector RlutEntry 128) : Conditions :=
  match i with
  | .enc32 _ _ => {}
  | .dec32 c0 c1 c2 c3 c4 => groupConditions rlut c0 c1 c2 c3 c4
  | .alphaRd _ x => { range := !decide (x.toNat < 85) }
  | .rlutRd _ c => { invchr := invchrOf rlut [c] }

/-- Everything a command does: it completes with its answer. -/
theorem exec_eq (i : Instr) (s : State) :
    exec i s = .next (s.complete (answerResult i s.alpha s.rlut) (answerConditions i s.rlut)) := by
  cases i with
  | enc32 g v => rfl
  | dec32 c0 c1 c2 c3 c4 => rfl
  | alphaRd g x =>
    simp only [exec, execAlphaRd, answerResult, answerConditions]
    by_cases h : x.toNat < 85 <;> simp [h]
  | rlutRd g c => rfl

/-- Everything a command word does. -/
theorem runWord_eq (w : Word48) (s : State) :
    runWord w s = .next (match decode w with
      | .command i => s.complete (answerResult i s.alpha s.rlut) (answerConditions i s.rlut)
      | .reserved _ => s.reservedCommand) := by
  unfold runWord
  cases decode w with
  | command i => exact exec_eq i s
  | reserved _ => rfl

/-- The block after a command word. -/
def afterWord (w : Word48) (s : State) : State :=
  match decode w with
  | .command i => s.complete (answerResult i s.alpha s.rlut) (answerConditions i s.rlut)
  | .reserved _ => s.reservedCommand

theorem runWord_eq_afterWord (w : Word48) (s : State) : runWord w s = .next (afterWord w s) :=
  runWord_eq w s

theorem afterWord_of_command {w : Word48} {i : Instr} (h : decode w = .command i) (s : State) :
    afterWord w s = s.complete (answerResult i s.alpha s.rlut) (answerConditions i s.rlut) := by
  simp only [afterWord, h]

theorem afterWord_of_reserved {w : Word48} {y : Reserved} (h : decode w = .reserved y) (s : State) :
    afterWord w s = s.reservedCommand := by
  simp only [afterWord, h]

/-- What a command word leaves alone (20 R53). -/
@[simp] theorem afterWord_alpha (w : Word48) (s : State) : (afterWord w s).alpha = s.alpha := by
  unfold afterWord; cases decode w <;> rfl
@[simp] theorem afterWord_rlut (w : Word48) (s : State) : (afterWord w s).rlut = s.rlut := by
  unfold afterWord; cases decode w <;> rfl
@[simp] theorem afterWord_port (w : Word48) (s : State) : (afterWord w s).port = s.port := by
  unfold afterWord; cases decode w <;> rfl
@[simp] theorem afterWord_delivered (w : Word48) (s : State) : (afterWord w s).delivered = s.delivered := by
  unfold afterWord; cases decode w <;> rfl
@[simp] theorem afterWord_procs (w : Word48) (s : State) : (afterWord w s).procs = s.procs := by
  unfold afterWord; cases decode w <;> rfl

/-- STATUS after a command word is that of some conditions (10 R26). -/
theorem afterWord_status (w : Word48) (s : State) : ∃ c, (afterWord w s).status = statusWord c := by
  unfold afterWord
  cases decode w with
  | command i => exact ⟨_, rfl⟩
  | reserved _ => exact ⟨{ illegal := true }, rfl⟩

/-! ### Host actions -/

/-- Issuing a word: the block runs it, and the issuer gets the response (45 R140). -/
theorem issueWord_eq (h : HostId) (w : Word48) (s : State) :
    issueWord h w s = .next ((afterWord w s).respond h) := by
  rw [issueWord, runWord_eq_afterWord]; rfl

/-- Everything an `advance` does: nothing, or one command of a running call. -/
theorem advanceCall_cases (k : Nat) (s : State) :
    (advanceCall k s = .next s ∧ ∀ h c pad w todo out bad,
      s.procs[k]? ≠ some ⟨h, c, .running pad (w :: todo) out bad⟩) ∨
    ∃ h c pad w todo out bad, s.procs[k]? = some ⟨h, c, .running pad (w :: todo) out bad⟩ ∧
      advanceCall k s = .next (((afterWord w s).respond h).takeResponse k h c pad todo out bad) := by
  unfold advanceCall
  rcases hk : s.procs[k]? with - | ⟨h, c, ph⟩
  · exact .inl ⟨rfl, by simp⟩
  · rcases ph with ⟨pad, todo, out, bad⟩ | r
    · rcases todo with - | ⟨w, todo⟩
      · exact .inl ⟨rfl, by simp⟩
      · refine .inr ⟨h, c, pad, w, todo, out, bad, rfl, ?_⟩
        simp only [issueWord_eq, andThen]
    · exact .inl ⟨rfl, by simp⟩

/-- Everything a step does (45 R140): idle, or one of the host actions. -/
theorem step_cases {s t : State} (h : step s = .next t) :
    (s.port = [] ∧ t = s) ∨
    ∃ a rest s₀, s.port = a :: rest ∧ s₀ = { s with port := rest } ∧
      ((∃ g w, a = .issue g w ∧ t = (afterWord w s₀).respond g) ∨
       (∃ g, a = .readResult g ∧ t = s₀.deliver (.resultRead g s₀.result)) ∨
       (∃ g, a = .readStatus g ∧ t = s₀.deliver (.statusRead g s₀.status)) ∨
       ((a = .reset ∨ ∃ g w, a = .resetInFlight g w) ∧ t = s₀.resetRegisters) ∨
       (∃ g c, a = .call g c ∧ t = s₀.startCall g c) ∨
       (∃ k, a = .advance k ∧ ((t = s₀ ∧ ∀ g c pad w todo out bad,
            s₀.procs[k]? ≠ some ⟨g, c, .running pad (w :: todo) out bad⟩) ∨
          ∃ g c pad w todo out bad, s₀.procs[k]? = some ⟨g, c, .running pad (w :: todo) out bad⟩ ∧
            t = ((afterWord w s₀).respond g).takeResponse k g c pad todo out bad))) := by
  unfold step nextAction at h
  rcases hp : s.port with - | ⟨a, rest⟩
  · rw [hp] at h
    cases h
    exact .inl ⟨rfl, rfl⟩
  · rw [hp] at h
    refine .inr ⟨a, rest, { s with port := rest }, rfl, rfl, ?_⟩
    cases a with
    | issue g w =>
      left
      simp only [perform, issueWord_eq] at h
      cases h
      exact ⟨g, w, rfl, rfl⟩
    | readResult g => right; left; cases h; exact ⟨g, rfl, rfl⟩
    | readStatus g => right; right; left; cases h; exact ⟨g, rfl, rfl⟩
    | reset => right; right; right; left; cases h; exact ⟨.inl rfl, rfl⟩
    | resetInFlight g w => right; right; right; left; cases h; exact ⟨.inr ⟨g, w, rfl⟩, rfl⟩
    | call g c => right; right; right; right; left; cases h; exact ⟨g, c, rfl, rfl⟩
    | advance k =>
      right; right; right; right; right
      simp only [perform] at h
      refine ⟨k, rfl, ?_⟩
      rcases advanceCall_cases k { s with port := rest } with ⟨e, hn⟩ | ⟨g, c, pad, w, todo, out, bad, hk, e⟩
      · rw [e] at h; cases h; exact .inl ⟨rfl, hn⟩
      · rw [e] at h; cases h; exact .inr ⟨g, c, pad, w, todo, out, bad, hk, rfl⟩

/-- A step whose next action issues a word (45 R140). -/
theorem step_issue {s : State} {h : HostId} {w : Word48} {rest : List HostAction}
    (hp : s.port = .issue h w :: rest) : step s = .next ((afterWord w { s with port := rest }).respond h) := by
  unfold step nextAction
  rw [hp]
  exact issueWord_eq _ _ _

/-- A step whose next action lets a running call go on (45 R142, R149). -/
theorem step_advance {s : State} {k : Nat} {rest : List HostAction} {h : HostId} {c : Call} {pad : Nat} {w : Word48}
    {todo : List Word48} {out : List Byte} {bad : Bool} (hp : s.port = .advance k :: rest)
    (hk : s.procs[k]? = some ⟨h, c, .running pad (w :: todo) out bad⟩) :
    step s = .next (((afterWord w { s with port := rest }).respond h).takeResponse k h c pad todo out bad) := by
  unfold step nextAction
  rw [hp]
  simp only [perform, advanceCall, hk, issueWord_eq, andThen]

/-- The answer to a legal word depends on the word and the ROMs alone (20 R56). -/
theorem afterWord_of_same_roms {s s' : State} {w : Word48} (ha : s.alpha = s'.alpha) (hr : s.rlut = s'.rlut)
    (hw : ∃ i, decode w = .command i) :
    (afterWord w s).result = (afterWord w s').result ∧ (afterWord w s).status = (afterWord w s').status := by
  obtain ⟨i, hi⟩ := hw
  simp [afterWord_of_command hi, ha, hr]

/-! ### Runs -/

/-- A step goes on (60 R170). -/
theorem exists_step (s : State) : ∃ t, step s = .next t := by
  unfold step nextAction
  rcases s.port with - | ⟨a, rest⟩
  · exact ⟨_, rfl⟩
  · cases a with
    | issue g w => exact ⟨_, issueWord_eq _ _ _⟩
    | advance k =>
      rcases advanceCall_cases k { s with port := rest } with ⟨h, -⟩ | ⟨_, _, _, _, _, _, _, -, h⟩
      · exact ⟨_, h⟩
      · exact ⟨_, h⟩
    | _ => exact ⟨_, rfl⟩

@[simp] theorem run_zero (s : State) : Sys2Proof.core.run 0 s = .next s := rfl

/-- A run of one step more is a run from the state after the step. -/
theorem run_succ {s t : State} (h : step s = .next t) (n : Nat) :
    Sys2Proof.core.run (n + 1) s = Sys2Proof.core.run n t := by
  have e := Host.Core.run.eq_2 Sys2Proof.core s n
  have h' : Sys2Proof.core.step s = .next t := h
  rw [h'] at e
  exact e

/-- What holds at the start and is kept by every step holds after any run. -/
theorem run_keeps {P : State → Prop} (hstep : ∀ s t, P s → step s = .next t → P t) :
    ∀ (n : Nat) (s t : State), P s → Sys2Proof.core.run n s = .next t → P t := by
  intro n
  induction n with
  | zero => intro s t hs h; cases h; exact hs
  | succ n ih =>
    intro s t hs h
    obtain ⟨u, hu⟩ := exists_step s
    rw [run_succ hu] at h
    exact ih u t (hstep s u hs hu) h

end Sys2Proof.Laws
end

