-- ==== Sys2Proof/Laws/Rom.lean ====
section
/-! SUPPORT. The ROM contents as laws: the two tables are inverse to each other (20 R41 to R48). -/

namespace Sys2Proof.Laws

open Sys2Proof.Machine

/-- The entry of an alphabet code is valid and holds its digit (20 R46). -/
theorem rlutRom_of_alpha : ∀ d : Fin 85,
    rlutRom.get (rlutIndex (alphaRom.get d)).toFin = ⟨true, BitVec.ofNat 8 d.val⟩ := by decide +kernel

/-- A valid entry's digit is below 85 and its code is the one of that digit (20 R44). -/
theorem rlutRom_valid : ∀ i : BitVec 7, (rlutRom.get i.toFin).valid = true →
    ∃ d : Fin 85, (rlutRom.get i.toFin).digit = BitVec.ofNat 8 d.val ∧ rlutIndex (alphaRom.get d) = i := by
  have key : ∀ i : Fin 128, ((rlutRom.get i).valid = true →
      ∃ h : (rlutRom.get i).digit.toNat < 85,
        rlutIndex (alphaRom.get ⟨(rlutRom.get i).digit.toNat, h⟩) = BitVec.ofFin i) := by decide +kernel
  intro i h
  obtain ⟨hd, hi⟩ := key i.toFin h
  exact ⟨_, by simp, hi⟩

/-- An invalid entry holds its sentinel (20 R45). -/
theorem rlutRom_invalid : ∀ i : BitVec 7, (rlutRom.get i.toFin).valid = false →
    rlutRom.get i.toFin = ⟨false, Config.sentinel i⟩ := by
  have key : ∀ n : Fin 128, (rlutRom.get n).valid = true ∨
      rlutRom.get n = ⟨false, Config.sentinel (BitVec.ofFin n)⟩ := by
    intro n
    fin_cases n <;> first | exact .inl rfl | exact .inr rfl
  intro i h
  rcases key i.toFin with k | k
  · rw [h] at k; cases k
  · exact k

/-- The digit of a code, from the entry it reaches. -/
theorem alphaRom_injective : ∀ d e : Fin 85, alphaRom.get d = alphaRom.get e → d = e := by
  intro d e h
  have hd := rlutRom_of_alpha d
  rw [h, rlutRom_of_alpha e] at hd
  have := congrArg (fun x => x.digit.toNat) hd
  have he := e.isLt; have hd' := d.isLt
  simp only [BitVec.toNat_ofNat] at this
  ext; omega

/-- Every alphabet code has bit 7 clear (20 R42). -/
theorem alphaRom_bit7 : ∀ d : Fin 85, (alphaRom.get d).getLsbD 7 = false := by decide +kernel

/-- The index as a number (20 R43). -/
theorem rlutIndex_toNat (c : Byte) : (rlutIndex c).toNat = (c.toNat + 224) % 128 := by
  have h : (rlutIndex c).toNat = ((c - 32#8) &&& 0x7F#8).toNat % 2 ^ 7 := by
    rw [rlutIndex, BitVec.toNat_setWidth]
  rw [h, BitVec.toNat_and, BitVec.toNat_sub]
  have h7 : (0x7F#8).toNat = 2 ^ 7 - 1 := rfl
  rw [h7, Nat.and_two_pow_sub_one_eq_mod]
  have := c.isLt
  simp only [BitVec.toNat_ofNat]
  omega

/-- Two codes with one index and one bit 7 are equal (20 R43). -/
theorem code_of_rlutIndex {c c' : Byte} (h : rlutIndex c = rlutIndex c')
    (h7 : c.getLsbD 7 = c'.getLsbD 7) : c = c' := by
  have e := congrArg BitVec.toNat h
  rw [rlutIndex_toNat, rlutIndex_toNat] at e
  have a : c.getLsbD 7 = decide (128 ≤ c.toNat) := by
    have := c.isLt
    rw [BitVec.getLsbD, Nat.testBit_eq_decide_div_mod_eq]; congr 1; apply propext; omega
  have b : c'.getLsbD 7 = decide (128 ≤ c'.toNat) := by
    have := c'.isLt
    rw [BitVec.getLsbD, Nat.testBit_eq_decide_div_mod_eq]; congr 1; apply propext; omega
  rw [a, b, decide_eq_decide] at h7
  have := c.isLt; have := c'.isLt
  apply BitVec.eq_of_toNat_eq
  omega

/-- Alphabet membership by the ROM is membership in the alphabet (20 R48). -/
theorem isAlpha_iff (c : Byte) : isAlpha rlutRom c = true ↔ ∃ d, alphaRom.get d = c := by
  simp only [isAlpha, rlutAt, Bool.and_eq_true, Bool.not_eq_true']
  constructor
  · rintro ⟨h7, hv⟩
    obtain ⟨d, -, hi⟩ := rlutRom_valid _ hv
    exact ⟨d, code_of_rlutIndex hi (by rw [alphaRom_bit7, h7])⟩
  · rintro ⟨d, rfl⟩
    exact ⟨alphaRom_bit7 d, by rw [rlutRom_of_alpha]⟩

/-- Codes that differ only in bit 7 reach one entry (20 R47). -/
theorem rlutIndex_alias (c : Byte) : rlutIndex (c ^^^ 0x80#8) = rlutIndex c := by
  revert c; decide +kernel

end Sys2Proof.Laws
end

