-- ==== Sys2Proof/Laws/Coder.lean ====
section
/-! SUPPORT. The frame encoder and decoder against each other (40 R80, R83, 41 R100, R104, R105). -/

namespace Sys2Proof.Laws

open Sys2Proof.Machine

/-- The digits of a frame, as numbers (40 R80). -/
theorem encDigit_val (v : Frame) (k : Fin 5) : (encDigit v k).val = v.toNat / 85 ^ (4 - k.val) % 85 := rfl

/-- The digits of a frame make up the frame. -/
theorem encDigit_sum (v : Frame) : (encDigit v 0).val * 85 ^ 4 + (encDigit v 1).val * 85 ^ 3 +
    (encDigit v 2).val * 85 ^ 2 + (encDigit v 3).val * 85 + (encDigit v 4).val = v.toNat := by
  have h := digits_sum (n := v.toNat) (by have := v.isLt; omega)
  have e3 : (encDigit v 3).val = v.toNat / 85 ^ 1 % 85 := rfl
  have e4 : (encDigit v 4).val = v.toNat / 85 ^ 0 % 85 := rfl
  rw [pow_one] at e3; rw [pow_zero, Nat.div_one] at e4
  rw [e3, e4]
  exact h

/-- The characters ENC32 writes (40 R80). -/
@[simp] theorem groupChars_encFrame (alpha : Vector Byte 85) (v : Frame) :
    groupChars (encFrame alpha v) = [alpha.get (encDigit v 0), alpha.get (encDigit v 1),
      alpha.get (encDigit v 2), alpha.get (encDigit v 3), alpha.get (encDigit v 4)] :=
  groupChars_packGroup _ _ _ _ _

theorem charAt_encFrame (alpha : Vector Byte 85) (v : Frame) (k : Fin 5) :
    charAt (encFrame alpha v) k = alpha.get (encDigit v k) := by
  obtain ⟨a, b, c, d, e⟩ := charAt_packGroup (alphaAt alpha (encDigit v 0)) (alphaAt alpha (encDigit v 1))
    (alphaAt alpha (encDigit v 2)) (alphaAt alpha (encDigit v 3)) (alphaAt alpha (encDigit v 4))
  fin_cases k
  exacts [a, b, c, d, e]

/-- The digit of an alphabet code is its index (20 R46). -/
@[simp] theorem charDigit_alpha (d : Fin 85) : (charDigit rlutRom (alphaRom.get d)).toNat = d.val := by
  have h : charDigit rlutRom (alphaRom.get d) = BitVec.ofNat 8 d.val := by
    rw [charDigit, rlutAt, rlutRom_of_alpha]
  rw [h, BitVec.toNat_ofNat]
  have := d.isLt
  omega

/-- The value of a group of alphabet codes (41 R100, R102). -/
theorem groupValue_alpha (d0 d1 d2 d3 d4 : Fin 85) :
    groupValue rlutRom (alphaRom.get d0) (alphaRom.get d1) (alphaRom.get d2) (alphaRom.get d3)
      (alphaRom.get d4) =
        d0.val * 85 ^ 4 + d1.val * 85 ^ 3 + d2.val * 85 ^ 2 + d3.val * 85 + d4.val := by
  simp only [groupValue, digitsValue, charDigit_alpha]

/-- A group without INVCHR is five alphabet codes (20 R48). -/
theorem alpha_of_no_invchr {c0 c1 c2 c3 c4 : Byte} (h : invchrOf rlutRom [c0, c1, c2, c3, c4] = false) :
    ∃ d0 d1 d2 d3 d4, alphaRom.get d0 = c0 ∧ alphaRom.get d1 = c1 ∧ alphaRom.get d2 = c2 ∧
      alphaRom.get d3 = c3 ∧ alphaRom.get d4 = c4 := by
  simp only [invchrOf, List.any_cons, List.any_nil, Bool.or_false, Bool.or_eq_false_iff,
    Bool.not_eq_false', isAlpha_iff] at h
  obtain ⟨⟨d0, h0⟩, ⟨d1, h1⟩, ⟨d2, h2⟩, ⟨d3, h3⟩, ⟨d4, h4⟩⟩ := h
  exact ⟨d0, d1, d2, d3, d4, h0, h1, h2, h3, h4⟩

/-- Five alphabet codes have no INVCHR (40 R83). -/
@[simp] theorem invchrOf_alpha (d0 d1 d2 d3 d4 : Fin 85) :
    invchrOf rlutRom [alphaRom.get d0, alphaRom.get d1, alphaRom.get d2, alphaRom.get d3, alphaRom.get d4] =
      false := by
  have h : ∀ d, isAlpha rlutRom (alphaRom.get d) = true := fun d => (isAlpha_iff _).mpr ⟨d, rfl⟩
  simp [invchrOf, h]

/-- The value of what ENC32 writes is the frame (41 R104). -/
theorem groupValue_encFrame (v : Frame) :
    groupValue rlutRom (alphaRom.get (encDigit v 0)) (alphaRom.get (encDigit v 1))
      (alphaRom.get (encDigit v 2)) (alphaRom.get (encDigit v 3)) (alphaRom.get (encDigit v 4)) =
        v.toNat := by
  rw [groupValue_alpha, encDigit_sum]

/-- ENC32 gives back a group of alphabet codes whose value fits (41 R105). -/
theorem encFrame_of_value (d0 d1 d2 d3 d4 : Fin 85) (v : Frame)
    (h : d0.val * 85 ^ 4 + d1.val * 85 ^ 3 + d2.val * 85 ^ 2 + d3.val * 85 + d4.val = v.toNat) :
    encFrame alphaRom v = packGroup (alphaRom.get d0) (alphaRom.get d1) (alphaRom.get d2) (alphaRom.get d3)
      (alphaRom.get d4) := by
  obtain ⟨e0, e1, e2, e3, e4⟩ := digits_of_sum d0.isLt d1.isLt d2.isLt d3.isLt d4.isLt h
  have f0 : encDigit v 0 = d0 := Fin.ext e0
  have f1 : encDigit v 1 = d1 := Fin.ext e1
  have f2 : encDigit v 2 = d2 := Fin.ext e2
  have f3 : encDigit v 3 = d3 := Fin.ext (by rw [encDigit_val, ← e3]; congr 1)
  have f4 : encDigit v 4 = d4 := Fin.ext (by rw [encDigit_val, ← e4]; congr 1; exact Nat.div_one _)
  simp only [encFrame, alphaAt, f0, f1, f2, f3, f4]

/-- DECODE's frame of a group ENC32 wrote (41 R104). -/
@[simp] theorem decFrame_encFrame (v : Frame) : decFrame (encFrame alphaRom v) = v := by
  simp only [decFrame, charAt_encFrame, groupValue_encFrame, BitVec.ofNat_toNat, BitVec.setWidth_eq]

end Sys2Proof.Laws
end

