-- ==== Sys2Proof/Laws/PerInstr.lean ====
section
/-! SUPPORT. Statements about every command, one lemma for each constructor of Instr. -/

namespace Sys2Proof.Laws

/-- The word of a command fits a row of the opcode map of 30 R63. -/
def EncodesLegal.Statement (i : Instr) : Prop := legal (encode i) = true

/-- The mask of 30 R63 keeps the CMD byte and clears the operand. -/
theorem and_mask (w : Word48) : w &&& 0xFF0000000000#48 = (cmd w ++ 0#40 : Word48) := by
  have hs : w &&& 0xFF0000000000#48 = (w >>> 40) <<< 40 := by
    ext i hi
    simp [BitVec.getElem_shiftLeft]
    interval_cases i <;> simp
  have ha : (cmd w ++ 0#40 : Word48).toNat = _ := toNat_append (cmd w) 0#40
  rw [hs, ← BitVec.toNat_inj, ha, cmd, toNat_field]
  have := w.isLt
  simp [Nat.shiftLeft_eq, Nat.shiftRight_eq_div_pow]
  omega

/-- A word with one of the four CMD bytes is legal. -/
theorem legal_of_cmd {w : Word48} (h : cmd w = 0x01#8 ∨ cmd w = 0x02#8 ∨ cmd w = 0x03#8 ∨ cmd w = 0x04#8) :
    legal w = true := by
  simp only [legal, opcodeMap, OpcodeRow.fits, List.any_cons, List.any_nil, and_mask]
  rcases h with h | h | h | h <;> rw [h] <;> decide

theorem EncodesLegal.enc32 (ignored : Byte) (frame : Frame) :
    EncodesLegal.Statement (.enc32 ignored frame) :=
  legal_of_cmd (.inl ((cmd_eq_iff _ _).mpr (by rw [encode_enc32_toNat, BitVec.toNat_ofNat]; omega)))

theorem EncodesLegal.dec32 (c0 c1 c2 c3 c4 : Byte) : EncodesLegal.Statement (.dec32 c0 c1 c2 c3 c4) :=
  legal_of_cmd (.inr (.inl ((cmd_eq_iff _ _).mpr (by rw [encode_dec32_toNat, BitVec.toNat_ofNat]; omega))))

theorem EncodesLegal.alphaRd (ignored : BitVec 32) (idx : Byte) :
    EncodesLegal.Statement (.alphaRd ignored idx) :=
  legal_of_cmd
    (.inr (.inr (.inl ((cmd_eq_iff _ _).mpr (by rw [encode_alphaRd_toNat, BitVec.toNat_ofNat]; omega)))))

theorem EncodesLegal.rlutRd (ignored : BitVec 32) (ch : Byte) :
    EncodesLegal.Statement (.rlutRd ignored ch) :=
  legal_of_cmd
    (.inr (.inr (.inr ((cmd_eq_iff _ _).mpr (by rw [encode_rlutRd_toNat, BitVec.toNat_ofNat]; omega)))))

end Sys2Proof.Laws
end

