-- ==== Sys2Proof/Laws/Sequencer.lean ====
section
/-! SUPPORT. Cutting buffers into frames and groups, and putting them together again (45 R142 to R156). -/

namespace Sys2Proof.Laws

open Sys2Proof.Machine

/-! ### Lengths -/

theorem framesOf_length (l : List Byte) : (framesOf l).length = l.length / 4 := by
  induction l using framesOf.induct with
  | case1 b0 b1 b2 b3 rest ih => simp only [framesOf, List.length_cons, ih]; omega
  | case2 l h =>
    rcases l with - | ⟨a, - | ⟨b, - | ⟨c, - | ⟨d, l⟩⟩⟩⟩
    · simp [framesOf]
    · simp [framesOf]
    · simp [framesOf]
    · simp [framesOf]
    · exact absurd rfl (h a b c d l)

theorem groupsOf_length (l : List Byte) : (groupsOf l).length = l.length / 5 := by
  induction l using groupsOf.induct with
  | case1 c0 c1 c2 c3 c4 rest ih => simp only [groupsOf, List.length_cons, ih]; omega
  | case2 l h =>
    rcases l with - | ⟨a, - | ⟨b, - | ⟨c, - | ⟨d, - | ⟨e, l⟩⟩⟩⟩⟩
    · simp [groupsOf]
    · simp [groupsOf]
    · simp [groupsOf]
    · simp [groupsOf]
    · simp [groupsOf]
    · exact absurd rfl (h a b c d e l)

@[simp] theorem encodedChars_nil : encodedChars [] = [] := rfl
@[simp] theorem encodedChars_cons (v : Frame) (vs : List Frame) :
    encodedChars (v :: vs) = groupChars (encFrame alphaRom v) ++ encodedChars vs := rfl
@[simp] theorem encodedChars_append (us vs : List Frame) :
    encodedChars (us ++ vs) = encodedChars us ++ encodedChars vs := List.flatMap_append
@[simp] theorem encodedChars_length (vs : List Frame) : (encodedChars vs).length = 5 * vs.length := by
  induction vs with
  | nil => rfl
  | cons v vs ih => rw [encodedChars_cons, List.length_append, groupChars_length, ih, List.length_cons]; ring

@[simp] theorem decodedBytes_nil : decodedBytes [] = [] := rfl
@[simp] theorem decodedBytes_cons (g : Word40) (gs : List Word40) :
    decodedBytes (g :: gs) = bytesOfFrame (decFrame g) ++ decodedBytes gs := rfl
@[simp] theorem decodedBytes_append (fs gs : List Word40) :
    decodedBytes (fs ++ gs) = decodedBytes fs ++ decodedBytes gs := List.flatMap_append
@[simp] theorem decodedBytes_length (gs : List Word40) : (decodedBytes gs).length = 4 * gs.length := by
  induction gs with
  | nil => rfl
  | cons g gs ih => rw [decodedBytes_cons, List.length_append, bytesOfFrame_length, ih, List.length_cons]; ring

@[simp] theorem anyInvchr_nil : anyInvchr [] = false := rfl
@[simp] theorem anyInvchr_append (fs gs : List Word40) :
    anyInvchr (fs ++ gs) = (anyInvchr fs || anyInvchr gs) := List.any_append

/-! ### The padding count and the marker -/

/-- The padding count is 0 to 3 and makes the length a multiple of 4 (45 R145). -/
theorem padCount_spec (n : Nat) : padCount n ≤ 3 ∧ (n + padCount n) % 4 = 0 ∧ padCount n = (4 - n % 4) % 4 := by
  unfold padCount
  split <;> omega

@[simp] theorem marker_zero : marker 0 = [] := rfl

theorem marker_length (p : Nat) : (marker p).length = if p > 0 then 1 else 0 := by
  unfold marker; split <;> rfl

/-- The marker of a padding count reads as that count (45 R147, R151). -/
theorem markerCount_marker {p : Nat} (h0 : 0 < p) (h3 : p ≤ 3) :
    marker p = [0x30#8 + BitVec.ofNat 8 p] ∧ markerCount (0x30#8 + BitVec.ofNat 8 p) = some p := by
  refine ⟨by rw [marker, if_pos h0], ?_⟩
  interval_cases p <;> decide

/-- A marker count is 1, 2 or 3 (45 R151). -/
theorem markerCount_eq_some {m : Byte} {p : Nat} (h : markerCount m = some p) :
    (m = 0x31#8 ∨ m = 0x32#8 ∨ m = 0x33#8) ∧ p = m.toNat - 0x30 ∧ 1 ≤ p ∧ p ≤ 3 := by
  unfold markerCount at h
  split at h
  · rename_i hm
    cases h
    refine ⟨hm, rfl, ?_⟩
    rcases hm with rfl | rfl | rfl <;> decide
  · cases h

theorem markerCount_eq_none {m : Byte} :
    markerCount m = none ↔ m ≠ 0x31#8 ∧ m ≠ 0x32#8 ∧ m ≠ 0x33#8 := by
  unfold markerCount
  split
  · rename_i hm; simp only [reduceCtorEq, false_iff]; tauto
  · rename_i hm; simp only [true_iff]; tauto

/-! ### Cutting and joining -/

/-- The frames of whole frames' bytes are those frames. -/
theorem flatMap_bytes_framesOf (l : List Byte) (h : l.length % 4 = 0) :
    (framesOf l).flatMap bytesOfFrame = l := by
  induction l using framesOf.induct with
  | case1 b0 b1 b2 b3 rest ih =>
    have hr : rest.length % 4 = 0 := by simp only [List.length_cons] at h; omega
    rw [framesOf, List.flatMap_cons, bytesOfFrame_frameOfBytes, ih hr]
    rfl
  | case2 l hl =>
    rcases l with - | ⟨a, - | ⟨b, - | ⟨c, - | ⟨d, l⟩⟩⟩⟩
    · rfl
    · exact absurd h (by simp)
    · exact absurd h (by simp)
    · exact absurd h (by simp)
    · exact absurd rfl (hl a b c d l)

/-- Fewer than five characters hold no group. -/
theorem groupsOf_short {l : List Byte} (h : l.length < 5) : groupsOf l = [] := by
  rw [← List.length_eq_zero_iff, groupsOf_length]; omega

/-- The groups of encoded characters, with fewer than five more after them, are the encoded frames. -/
theorem groupsOf_encodedChars (vs : List Frame) {rest : List Byte} (h : rest.length < 5) :
    groupsOf (encodedChars vs ++ rest) = vs.map (encFrame alphaRom) := by
  induction vs with
  | nil => exact groupsOf_short h
  | cons v vs ih =>
    rw [encodedChars_cons, List.append_assoc, List.map_cons, ← ih]
    exact congrArg (· :: _) (packGroup_charAt _)

/-- A first part of whole groups is cut off whole (45 R153). -/
theorem groupsOf_append (front rest : List Byte) (h : front.length % 5 = 0) :
    groupsOf (front ++ rest) = groupsOf front ++ groupsOf rest := by
  induction front using groupsOf.induct with
  | case1 c0 c1 c2 c3 c4 l ih =>
    have hl : l.length % 5 = 0 := by simp only [List.length_cons] at h; omega
    simp only [List.cons_append, groupsOf, ih hl]
  | case2 l hl =>
    rcases l with - | ⟨a, - | ⟨b, - | ⟨c, - | ⟨d, - | ⟨e, l⟩⟩⟩⟩⟩
    · rfl
    · exact absurd h (by simp)
    · exact absurd h (by simp)
    · exact absurd h (by simp)
    · exact absurd h (by simp)
    · exact absurd rfl (hl a b c d e l)

/-- Decoding encoded frames gives their bytes, and no INVCHR (41 R104). -/
theorem decoded_of_encoded (vs : List Frame) :
    decodedBytes (vs.map (encFrame alphaRom)) = vs.flatMap bytesOfFrame ∧
      anyInvchr (vs.map (encFrame alphaRom)) = false := by
  constructor
  · induction vs with
    | nil => rfl
    | cons v vs ih => rw [List.map_cons, decodedBytes_cons, decFrame_encFrame, ih]; rfl
  · induction vs with
    | nil => rfl
    | cons v vs ih =>
      rw [List.map_cons]
      simp only [anyInvchr, List.any_cons, groupChars_encFrame, invchrOf_alpha, Bool.false_or]
      exact ih

/-! ### The plans, inverted -/

/-- What it takes for ENCODE's checks to pass (45 R143 to R146). -/
theorem encodePlan_go {data : List Byte} {autoPad : Bool} {p : Nat} {vs : List Frame}
    (h : encodePlan data autoPad = .go p vs) :
    p = padCount data.length ∧ vs = framesOf (data ++ List.replicate p 0#8) ∧
      (data.length % 4 = 0 ∨ autoPad = true) := by
  unfold encodePlan at h
  split at h
  · rename_i h0
    have hd : data = [] := List.length_eq_zero_iff.mp h0
    cases h; subst hd
    exact ⟨rfl, rfl, .inl rfl⟩
  · split at h
    · cases h
    · rename_i h1
      cases h
      refine ⟨rfl, rfl, ?_⟩
      cases autoPad
      · simp only [and_true, not_not] at h1; exact .inl h1
      · exact .inr rfl

/-- When ENCODE's checks fail (45 R144). -/
theorem encodePlan_fail {data : List Byte} {autoPad : Bool} {e : SeqError} :
    encodePlan data autoPad = .fail e ↔ e = .eLen4 ∧ data.length % 4 ≠ 0 ∧ autoPad = false := by
  unfold encodePlan
  split
  · rename_i h0
    simp only [reduceCtorEq, false_iff, h0]
    simp
  · split
    · rename_i h1
      simp only [Plan.fail.injEq]
      exact ⟨fun h => ⟨h.symm, h1⟩, fun h => h.1.symm⟩
    · rename_i h1
      simp only [reduceCtorEq, false_iff]
      exact fun h => h1 h.2

/-- What it takes for DECODE's checks to pass (45 R150 to R152). -/
theorem decodePlan_go {text : List Byte} {p : Nat} {gs : List Word40} (h : decodePlan text = .go p gs) :
    gs = groupsOf text ∧ p ≤ 4 * gs.length ∧ p ≤ 3 ∧
      ((text.length % 5 = 0 ∧ p = 0) ∨
        (text.length % 5 = 1 ∧ markerCount (text.getD (text.length - 1) 0#8) = some p)) := by
  unfold decodePlan at h
  dsimp only at h
  split at h
  · rename_i h0
    cases h
    exact ⟨rfl, Nat.zero_le _, Nat.zero_le _, .inl ⟨h0, rfl⟩⟩
  · rename_i h0
    split at h
    · rename_i h1
      split at h
      · cases h
      · rename_i q hq
        split at h
        · cases h
        · rename_i hle
          cases h
          have hm := markerCount_eq_some hq
          refine ⟨rfl, ?_, hm.2.2.2, .inr ⟨by omega, hq⟩⟩
          rw [groupsOf_length]
          omega
    · cases h

end Sys2Proof.Laws
end

