-- ==== Sys2Proof/Tests/Slice0.lean ====
section
/-! SUPPORT. Tests of the model, one step each, with expected values from spec/95_test_vectors.md and the
rules; then, for each obligation that has hypotheses, a witness that meets them. -/

namespace Sys2Proof.Tests

open Sys2Proof.Machine

/-! ### Helpers -/

/-- The next state, if there is one. -/
def nextState : StepResult → Option State
  | .next s => some s
  | .fault _ => none
  | .refused _ => none

/-- RESULT and STATUS of the next state. -/
def registersAfter (o : StepResult) : Option (Word40 × Byte) := (nextState o).map (fun s => (s.result, s.status))

/-- RESULT and STATUS after host 0 issues `w` to the block right after reset. -/
def answer (w : Nat) : Option (Word40 × Byte) := registersAfter (step (State.reset.withFetchWord 48 w))

/-- The state right after reset, with host actions pending. -/
def start (port : List HostAction) : State := { State.reset with port := port }

/-! ### Well-formedness refuses the ill-formed -/

theorem test_wf_enc32_ignored : (Instr.enc32 0xAB 0x864FD26F).wf = false := by decide
theorem test_wf_alphaRd_ignored : (Instr.alphaRd 0x00000001 0x2B).wf = false := by decide
theorem test_wf_rlutRd_ignored : (Instr.rlutRd 0x80000000 0x23).wf = false := by decide
theorem test_wf_accepts : (Instr.enc32 0 0xFFFFFFFF).wf = true ∧ (Instr.dec32 0xFF 0xFF 0xFF 0xFF 0xFF).wf = true ∧
    (Instr.alphaRd 0 0xFF).wf = true ∧ (Instr.rlutRd 0 0xFF).wf = true := by decide

theorem test_asm_wf_ranges :
    (AsmStmt.enc32 0x100000000).wf = false ∧ (AsmStmt.dec32Num 0x10000000000).wf = false ∧
    (AsmStmt.dec32Text [0x48, 0x65, 0x6C, 0x6C]).wf = false ∧
    (AsmStmt.dec32Text [0x48, 0x65, 0x6C, 0x6C, 0x7F]).wf = false ∧ (AsmStmt.alphaRd 256).wf = false ∧
    (AsmStmt.rlutRdChar 0x1F).wf = false ∧ (AsmStmt.rlutRdNum 256).wf = false ∧
    (AsmStmt.word48 0x1000000000000).wf = false := by decide

/-! ### Decoding, from the bits of 30 R60 to R64 -/

-- RSV 0000, OP 0001, ignored 10101011, FRAME 0x864FD26F
theorem test_decode_enc32 : decode 0b000000011010101110000110010011111101001001101111#48 =
    .command (.enc32 0xAB 0x864FD26F) := by decide
-- RSV 0000, OP 0010, then H e l l o
theorem test_decode_dec32 : decode 0b000000100100100001100101011011000110110001101111#48 =
    .command (.dec32 0x48 0x65 0x6C 0x6C 0x6F) := by decide
-- RSV 0000, OP 0011, 32 ignored ones, IDX 43
theorem test_decode_alphaRd : decode 0b000000111111111111111111111111111111111100101011#48 =
    .command (.alphaRd 0xFFFFFFFF 43) := by decide
-- RSV 0000, OP 0100, 32 ignored zeros, CH 0x23
theorem test_decode_rlutRd : decode 0b000001000000000000000000000000000000000000100011#48 =
    .command (.rlutRd 0 0x23) := by decide
-- RSV 0001, OP 0001
theorem test_decode_reserved_rsv : decode 0b000100010000000010000110010011111101001001101111#48 =
    .reserved (.rsvNotZero 0x1) := by decide
-- RSV 0000, OP 0000 and OP 1111
theorem test_decode_reserved_op : decode 0#48 = .reserved (.opReserved 0x0) ∧
    decode 0b000011111111111111111111111111111111111111111111#48 = .reserved (.opReserved 0xF) := by decide

theorem test_decodeTableWord : decodeTableWord 48 0x0248656C6C6F = some (.dec32 0x48 0x65 0x6C 0x6C 0x6F) ∧
    decodeTableWord 48 0x050000000000 = none := by decide

/-! ### One step each (95 sections 2.1 to 2.5) -/

theorem test_enc32_hello : answer 0x0100864FD26F = some (0x48656C6C6F, 0x01) := by decide +kernel
theorem test_enc32_sign_boundary : answer 0x010080000000 = some (0x46622F4D48, 0x01) := by decide +kernel

theorem test_dec32_alias_ovf : answer 0x02A3A3A3A3A3 = some (0x0008780EC4, 0x0D) := by decide +kernel
theorem test_dec32_wraps : answer 0x02256E536331 = some (0, 0x09) := by decide +kernel

theorem test_alphaRd_last : answer 0x030000000054 = some (0x23, 0x01) := by decide +kernel
theorem test_alphaRd_range : answer 0x030000000055 = some (0, 0x11) := by decide +kernel

theorem test_rlutRd_high : answer 0x04000000007D = some (0x150, 0x01) := by decide +kernel
theorem test_rlutRd_alias_and_space : answer 0x0400000000B0 = some (0x100, 0x05) ∧
    (answer 0x040000000020).map Prod.snd = some 0x05 := by decide +kernel

-- from a RESULT that is not 0: 95 P2 line 4
theorem test_reserved : registersAfter (step
    ({ State.reset with result := 0x864FD26F, status := 0x05 }.withFetchWord 48 0x1100864FD26F)) =
      some (0x00864FD26F, 0x03) := by decide +kernel

theorem test_latency_positive : 1 ≤ Config.latency := Nat.le_add_left 1 _

/-! ### The host sequencer (95 sections 2.6 and 2.7) -/

theorem test_encode_padded : seqEncode [0xFF] true = .value [0x40, 0x40, 0x72, 0x33, 0x30, 0x33] ∧
    seqEncode [0x01, 0x02, 0x03] false = .seqError .eLen4 := by decide +kernel
-- "?MsJX0rr913"
theorem test_decode_padded :
    seqDecode true [0x3F, 0x4D, 0x73, 0x4A, 0x58, 0x30, 0x72, 0x72, 0x39, 0x31, 0x33] =
      .value [0xDE, 0xAD, 0xBE, 0xEF, 0x01] := by decide +kernel
-- "#####", "Hell "
theorem test_decode_ovf_and_strict : seqDecode true [0x23, 0x23, 0x23, 0x23, 0x23] = .value [0x08, 0x78, 0x0E, 0xC4] ∧
    seqDecode true [0x48, 0x65, 0x6C, 0x6C, 0x20] = .seqError .eBadChr := by decide +kernel
-- "0000", "IllegalChrA", "0", "1"
theorem test_decode_errors : seqDecode false [0x30, 0x30, 0x30, 0x30] = .seqError .eLen5 ∧
    seqDecode false [0x49, 0x6C, 0x6C, 0x65, 0x67, 0x61, 0x6C, 0x43, 0x68, 0x72, 0x41] = .seqError .ePadChr ∧
    seqDecode false [0x30] = .seqError .ePadChr ∧ seqDecode false [0x31] = .seqError .ePadUnder := by decide +kernel

/-! ### The assembler (30 R69) -/

-- DEC32 "\"\\ab~" ; x
theorem test_asm_escapes : assembleText
    [0x44, 0x45, 0x43, 0x33, 0x32, 0x20, 0x22, 0x5C, 0x22, 0x5C, 0x5C, 0x61, 0x62, 0x7E, 0x22, 0x20, 0x3B, 0x78] =
      some [0x02225C61627E] := by decide +kernel
-- a comment line, then .word48 0x11_00_864F_D26F
theorem test_asm_word48 : assembleText
    [0x3B, 0x20, 0x61, 0x0A, 0x2E, 0x77, 0x6F, 0x72, 0x64, 0x34, 0x38, 0x20, 0x30, 0x78, 0x31, 0x31, 0x5F, 0x30, 0x30, 0x5F,
      0x38, 0x36, 0x34, 0x46, 0x5F, 0x44, 0x32, 0x36, 0x46] = some [0x1100864FD26F] := by decide +kernel
-- ALPHA_RD 256 is an error, not a truncation
theorem test_asm_range : assembleText
    [0x41, 0x4C, 0x50, 0x48, 0x41, 0x5F, 0x52, 0x44, 0x20, 0x32, 0x35, 0x36] = none := by decide +kernel

/-! ### Witnesses: states and operands that meet the hypotheses of the obligations -/

/-- Both ROMs are intact, in a state that is not the reset state. -/
theorem start_roms (port : List HostAction) : RomsIntact (start port) := ⟨rfl, rfl⟩

/-- The invariant, in states that are not the reset state. -/
theorem start_inv (port : List HostAction) : (start port).Inv where
  roms := start_roms port
  registers := by show RegistersAgree 0#40 0#8; unfold RegistersAgree; decide
  delivered := by intro d h; cases h
  procs := by intro p h; cases h

theorem witness_LegalCommandWords :
    (∀ i, decode 0x000000000000#48 ≠ .command i) ∧ (∀ i, decode 0x05FFFFFFFFFF#48 ≠ .command i) ∧
      (∀ i, decode 0x110000000000#48 ≠ .command i) := by
  refine ⟨?_, ?_, ?_⟩ <;> intro i h <;> exact absurd h (by rw [show decode _ = .reserved _ from rfl]; nofun)

theorem witness_EncodeOfDecode : decode 0x01AB864FD26F#48 = .command (.enc32 0xAB 0x864FD26F) := by decide

theorem witness_OperandFields : (0x0100864FD26F#48).extractLsb' 40 8 = 0x01#8 ∧
    (0x02FFFFFFFFFF#48).extractLsb' 40 8 = 0x02#8 ∧ (0x03000000002B#48).extractLsb' 40 8 = 0x03#8 ∧
    (0x040000000023#48).extractLsb' 40 8 = 0x04#8 := by decide

theorem witness_IgnoredBitsHaveNoEffect :
    ((0x0100864FD26F#48).extractLsb' 40 8 = 0x01#8 ∧ (0x01FF864FD26F#48).extractLsb' 40 8 = 0x01#8 ∧
      (0x0100864FD26F#48).extractLsb' 0 32 = (0x01FF864FD26F#48).extractLsb' 0 32) ∧
    ((0x030000000054#48).extractLsb' 40 8 = 0x03#8 ∧ (0x03FFFFFFFF54#48).extractLsb' 40 8 = 0x03#8 ∧
      (0x030000000054#48).extractLsb' 0 8 = (0x03FFFFFFFF54#48).extractLsb' 0 8) ∧
    ((0x0400000000FF#48).extractLsb' 40 8 = 0x04#8 ∧ (0x04FFFFFFFFFF#48).extractLsb' 40 8 = 0x04#8 ∧
      (0x0400000000FF#48).extractLsb' 0 8 = (0x04FFFFFFFFFF#48).extractLsb' 0 8) ∧
    (AsmStmt.assemble (.enc32 0xFFFFFFFF) = some 0x0100FFFFFFFF#48 ∧
      decode 0x0100FFFFFFFF#48 = .command (.enc32 0 0xFFFFFFFF)) ∧
    (AsmStmt.assemble (.alphaRd 255) = some 0x0300000000FF#48 ∧
      decode 0x0300000000FF#48 = .command (.alphaRd 0 0xFF)) ∧
    (AsmStmt.assemble (.rlutRdNum 0) = some 0x040000000000#48 ∧
      decode 0x040000000000#48 = .command (.rlutRd 0 0)) ∧
    (∃ c, AsmStmt.assemble (.rlutRdChar c) = some 0x04000000007E#48) ∧
    decode 0x04000000007E#48 = .command (.rlutRd 0 0x7E) := by
  refine ⟨?_, ?_, ?_, ?_, ?_, ?_, ⟨0x7E, ?_⟩, ?_⟩ <;> decide

theorem witness_AssemblerForms :
    (∀ c ∈ [0x20#8, 0x7E#8, 0x20#8, 0x7E#8, 0x30#8], 0x20 ≤ c.toNat ∧ c.toNat ≤ 0x7E) ∧
    ([0x30#8, 0x30#8].length ≠ 5) ∧
    (∃ c ∈ [0x30#8, 0x30#8, 0x1F#8, 0x30#8, 0x30#8], c.toNat < 0x20 ∨ 0x7E < c.toNat) ∧
    (∃ c ∈ [0x30#8, 0x30#8, 0x30#8, 0x30#8, 0x7F#8], c.toNat < 0x20 ∨ 0x7E < c.toNat) := by decide

theorem witness_AlphabetIsDistinct : alphaRom.get 84 = alphaRom.get (Fin.ofNat 85 84) ∧
    (0x20 ≤ (0x20#8).toNat ∧ (0x20#8).toNat ≤ 0x7F) ∧ (0x20 ≤ (0x7F#8).toNat ∧ (0x7F#8).toNat ≤ 0x7F) := by decide

theorem witness_RlutIndexOfCode : (0x20 ≤ (0x20#8).toNat ∧ (0x20#8).toNat ≤ 0x7F) ∧
    (0x20 ≤ (0x7F#8).toNat ∧ (0x7F#8).toNat ≤ 0x7F) ∧ (0x00#8).toNat ≤ 0x1F ∧ (0x1F#8).toNat ≤ 0x1F := by decide

theorem witness_RlutFollowsAlphabet :
    rlutIndex (alphaRom.get 84) = rlutIndex (alphaRom.get (Fin.ofNat 85 84)) ∧
    (∀ d : Fin 85, (0 : BitVec 7) ≠ rlutIndex (alphaRom.get d)) ∧
    (∀ d : Fin 85, (127 : BitVec 7) ≠ rlutIndex (alphaRom.get d)) := by decide +kernel

theorem witness_RomsAreInverse : (rlutRom.get (1 : BitVec 7).toFin).valid = true ∧
    (rlutRom.get (93 : BitVec 7).toFin).valid = true := by decide +kernel

theorem witness_AlphabetMembership : RomsIntact (start []) ∧ rlutIndex 0x48#8 = rlutIndex 0xC8#8 ∧
    rlutIndex 0x00#8 = rlutIndex 0x80#8 := ⟨start_roms _, by decide⟩

theorem witness_RomsAreNeverWritten : ∃ t, step (start [.issue 0 0x0100864FD26F#48]) = .next t := ⟨_, rfl⟩

theorem witness_Enc32WritesTheGroup : RomsIntact (start [.reset]) := start_roms _

theorem witness_Enc32FirstDigit : RomsIntact (start [.reset]) ∧ (4 : Fin 5) ≠ 0 ∧ (1 : Fin 5) ≠ 0 :=
  ⟨start_roms _, by decide⟩

theorem witness_Enc32IsInjective : RomsIntact (start []) ∧ ∃ t t', exec (.enc32 0x00 85) (start []) = .next t ∧
    exec (.enc32 0xAB 85) (start []) = .next t' ∧ t.result = t'.result := ⟨start_roms _, _, _, rfl, rfl, rfl⟩

theorem witness_Dec32WritesTheFrame : RomsIntact (start [.reset]) := start_roms _

theorem witness_Dec32AccumulatorWidth : 32 ≤ 32 := Nat.le_refl _

theorem witness_Dec32Overflow : RomsIntact (start []) ∧
    (4294967296 ≤ 4294967296 ∧ 4294967296 ≤ 4437053124) ∧ (4294967296 ≤ 4437053124 ∧ 4437053124 ≤ 4437053124) ∧
    decodePlan [0x23, 0x23, 0x23, 0x23, 0x23] = .go 0 [0x2323232323] ∧
    (∀ c ∈ [0x23#8, 0x23#8, 0x23#8, 0x23#8, 0x23#8], ∃ d, alphaRom.get d = c) := by
  refine ⟨start_roms _, by decide, by decide, by decide, by decide +kernel⟩

theorem witness_Dec32InvertsEnc32 : RomsIntact (start [.reset]) := start_roms _

-- "00000" has neither condition, "#####" has OVF, 0xB0 five times has INVCHR
theorem witness_CanonicalGroups : RomsIntact (start []) ∧
    (∃ t, exec (.dec32 0x30 0x30 0x30 0x30 0x30) (start []) = .next t ∧
      t.status.getLsbD 2 = false ∧ t.status.getLsbD 3 = false) ∧
    (∃ t, exec (.dec32 0x23 0x23 0x23 0x23 0x23) (start []) = .next t ∧ t.status.getLsbD 3 = true) ∧
    (∃ t, exec (.dec32 0xB0 0xB0 0xB0 0xB0 0xB0) (start []) = .next t ∧ t.status.getLsbD 2 = true) :=
  ⟨start_roms _, ⟨_, rfl, by decide +kernel⟩, ⟨_, rfl, by decide +kernel⟩, ⟨_, rfl, by decide +kernel⟩⟩

theorem witness_Dec32IsNotInjective : RomsIntact (start []) ∧
    groupValue (start []).rlut 0x25 0x6E 0x53 0x63 0x31 % 2 ^ 32 =
      groupValue (start []).rlut 0x30 0x30 0x30 0x30 0x30 % 2 ^ 32 ∧
    ((start []).rlut.get (rlutIndex 0x48).toFin).digit = ((start []).rlut.get (rlutIndex 0xC8).toFin).digit ∧
    (∃ t u, exec (.dec32 0x30 0x30 0x30 0x30 0x30) (start []) = .next t ∧
      exec (.dec32 0x25 0x6E 0x53 0x63 0x31) (start []) = .next u ∧ t.result = u.result ∧ t.status = 0x01#8) ∧
    [0x30#8, 0x30#8, 0x30#8, 0x30#8, 0x30#8] ≠ [0x25#8, 0x6E#8, 0x53#8, 0x63#8, 0x31#8] :=
  ⟨start_roms _, by decide +kernel, by decide +kernel, ⟨_, _, rfl, rfl, by decide +kernel, by decide +kernel⟩, by decide⟩

/-- A state whose space entry is invalid and holds digit 0. -/
def zeroSentinel : State := { State.reset with rlut := rlutRom.set 0 ⟨false, 0⟩ }

-- an invalid character and an alphabet character with one digit
theorem witness_Dec32IsNotInjective_invalid :
    (zeroSentinel.rlut.get (rlutIndex 0x20).toFin).digit = (zeroSentinel.rlut.get (rlutIndex 0x30).toFin).digit := by
  decide +kernel

theorem witness_AlphaRdReadsTheRom : RomsIntact (start []) ∧ (84#8).toNat ≤ 84 ∧ (0#8).toNat ≤ 84 ∧
    85 ≤ (85#8).toNat ∧ 85 ≤ (255#8).toNat := ⟨start_roms _, by decide⟩

theorem witness_RlutRdReadsTheRom : RomsIntact (start [.reset]) := start_roms _

theorem witness_RomRoundTrip : RomsIntact (start []) ∧ (84#8).toNat ≤ 84 := ⟨start_roms _, by decide⟩

theorem witness_RomReadsRepeat : (∃ g x, Instr.alphaRd 7 85 = .alphaRd g x) ∧ (∃ g c, Instr.rlutRd 0 0x20 = .rlutRd g c) ∧
    (start []).alpha = (start [.reset]).alpha ∧ (start []).rlut = (start [.reset]).rlut :=
  ⟨⟨_, _, rfl⟩, ⟨_, _, rfl⟩, rfl, rfl⟩

theorem witness_ReservedCommand : ∀ c ∈ [0x00#8, 0x05#8, 0x11#8, 0xFF#8],
    c ≠ 0x01#8 ∧ c ≠ 0x02#8 ∧ c ≠ 0x03#8 ∧ c ≠ 0x04#8 := by decide

/-- The reset state with other registers. -/
def dirty : State := { State.reset with result := 0xFFFFFFFFFF, status := 0x03 }

theorem witness_CommandsAreIndependent : State.reset.alpha = dirty.alpha ∧ State.reset.rlut = dirty.rlut ∧
    (∃ t, runWord 0x030000000054#48 State.reset = .next t) ∧ (∃ t, runWord 0x030000000054#48 dirty = .next t) ∧
    decode 0x030000000054#48 = .command (.alphaRd 0 84) ∧
    (∃ t, exec (.enc32 0 0) dirty = .next t) ∧ (∀ c0 c1 c2 c3 c4, Instr.enc32 0 0 ≠ .dec32 c0 c1 c2 c3 c4) ∧
    (∀ g c, Instr.enc32 0 0 ≠ .rlutRd g c) ∧ (∀ g x, Instr.enc32 0 0 ≠ .alphaRd g x) :=
  ⟨rfl, rfl, ⟨_, rfl⟩, ⟨_, rfl⟩, by decide, ⟨_, rfl⟩, nofun, nofun, nofun⟩

theorem witness_CommandFrame : (∃ t, exec (.dec32 0x48 0x65 0x6C 0x6C 0x6F) dirty = .next t) ∧
    ∃ t, runWord 0x050000000000#48 dirty = .next t := ⟨⟨_, rfl⟩, ⟨_, rfl⟩⟩

theorem witness_UnusedBitsReadZero : dirty.status.extractLsb' 5 3 = 0#3 ∧ (∃ t, step dirty = .next t) ∧
    (∃ t, runWord 0x050000000000#48 dirty = .next t) ∧ (∃ t, exec (.dec32 0 0 0 0 0) dirty = .next t) ∧
    (∃ t, exec (.alphaRd 0 85) dirty = .next t) ∧ ∃ t, exec (.rlutRd 0 0x20) dirty = .next t :=
  ⟨by decide, ⟨_, rfl⟩, ⟨_, rfl⟩, ⟨_, rfl⟩, ⟨_, rfl⟩, ⟨_, rfl⟩⟩

theorem witness_ConditionsTogether : RomsIntact dirty ∧
    (∃ t, runWord 0x000000000000#48 dirty = .next t ∧ t.status.getLsbD 1 = true) ∧
    (∃ t, runWord 0x030000000055#48 dirty = .next t ∧ t.status.getLsbD 4 = true) ∧
    (∃ t, runWord 0x04000000007F#48 dirty = .next t ∧ t.status.getLsbD 2 = true) :=
  ⟨⟨rfl, rfl⟩, ⟨_, rfl, by decide +kernel⟩, ⟨_, rfl, by decide +kernel⟩, ⟨_, rfl, by decide +kernel⟩⟩

theorem witness_StepRunsDecodedCommand : ((start [.issue 3 0x0400000000C8#48, .reset]).port =
      .issue 3 0x0400000000C8#48 :: [.reset] ∧ decode 0x0400000000C8#48 = .command (.rlutRd 0 0xC8)) ∧
    ((start [.issue 3 0x1100864FD26F#48, .reset]).port = .issue 3 0x1100864FD26F#48 :: [.reset] ∧
      decode 0x1100864FD26F#48 = .reserved (.rsvNotZero 0x1)) ∧
    decode 0x050000000000#48 = .reserved (.opReserved 0x5) := by decide

theorem witness_ResponseGoesToIssuer : (start [.issue 3 0x050000000000#48, .reset]).port =
    .issue 3 0x050000000000#48 :: [.reset] := rfl

theorem witness_HostReads : (start [.readResult 1]).port = .readResult 1 :: [] ∧
    (start [.readStatus 2]).port = .readStatus 2 :: [] ∧ dirty.port = [] := ⟨rfl, rfl, rfl⟩

theorem witness_ResetState : (start [.reset]).port = .reset :: [] ∧
    (start [.resetInFlight 1 0x0100864FD26F#48]).port = .resetInFlight 1 0x0100864FD26F#48 :: [] := ⟨rfl, rfl⟩

theorem witness_OrderOfHostsDoesNotMatter : decode 0x0100864FD26F#48 = .command (.enc32 0 0x864FD26F) ∧
    decode 0x03FFFFFFFF55#48 = .command (.alphaRd 0xFFFFFFFF 85) := by decide

theorem witness_InvariantKeptByStep : (start [.issue 0 0x0100864FD26F#48]).Inv ∧
    ∃ t, step (start [.issue 0 0x0100864FD26F#48]) = .next t := ⟨start_inv _, _, rfl⟩

theorem witness_EncodeChecks : [0x01#8, 0x02#8, 0x03#8].length % 4 ≠ 0 ∧ [0xFF#8].length % 4 ≠ 0 ∧
    ([0x86#8, 0x4F#8, 0xD2#8, 0x6F#8].length % 4 = 0 ∨ false = true) ∧ ([0xFF#8].length % 4 = 0 ∨ true = true) := by decide

theorem witness_EncodeOutput : seqEncode [0xFF] true = .value [0x40, 0x40, 0x72, 0x33, 0x30, 0x33] ∧
    4 < 5 ∧ 4 * 0 < ([0xFF#8] ++ List.replicate 3 0#8).length ∧ (4 - [0xFF#8].length % 4) % 4 > 0 := by decide +kernel

theorem witness_DecodeChecks : ([0x30#8, 0x30#8, 0x30#8, 0x30#8].length % 5 ≠ 0 ∧
      ([0x30#8, 0x30#8, 0x30#8, 0x30#8].length - 1) % 5 ≠ 0) ∧
    ([0x30#8, 0x30#8].length % 5 ≠ 0 ∧ ([0x30#8, 0x30#8].length - 1) % 5 ≠ 0) ∧
    ([0x34#8] = [] ++ [0x34#8] ∧ ([] : List Byte).length % 5 = 0 ∧ (0x34#8 ≠ 0x31#8 ∧ 0x34#8 ≠ 0x32#8 ∧ 0x34#8 ≠ 0x33#8)) ∧
    ([0x31#8] = [] ++ [0x31#8] ∧ (0x31#8 = 0x31#8 ∨ 0x31#8 = 0x32#8 ∨ 0x31#8 = 0x33#8)) ∧
    ([0x30#8, 0x30#8, 0x30#8, 0x30#8, 0x30#8].length % 5 = 0 ∧ [0x30#8, 0x30#8, 0x30#8, 0x30#8, 0x30#8] ≠ []) ∧
    ([] : List Byte).length % 5 = 0 := by decide

theorem witness_DecodeOutput : seqDecode true [0x30, 0x30, 0x30, 0x30, 0x30, 0x31] = .value [0, 0, 0] ∧
    3 < 4 ∧ 2 < 4 ∧ 4 * 0 + 2 < [0#8, 0#8, 0#8].length := by decide +kernel

theorem witness_StrictDecode : decodePlan [0x48, 0x65, 0x6C, 0x6C, 0x20] = .go 0 [0x48656C6C20] ∧
    decodePlan [0x30, 0x30, 0x30, 0x30, 0x30, 0x33] = .go 3 [0x3030303030] ∧ decodePlan [] = .go 0 [] := by decide

theorem witness_SequencerRoundTrip : [0x86#8, 0x4F#8, 0xD2#8, 0x6F#8].length % 4 = 0 ∧ ([] : List Byte).length % 4 = 0 := by
  decide

theorem witness_SequencerCommandCounts : (Call.encode [0xFF] true).plan = .go 3 [0x0100FF000000] ∧
    (Call.encode [] false).plan = .go 0 [] ∧
    (Call.decode [0x48, 0x65, 0x6C, 0x6C, 0x6F]).plan = .go 0 [0x0248656C6C6F] := by decide

theorem witness_ErrorsIssueNoCommand : (start [.call 1 (.decode [0x31])]).port = .call 1 (.decode [0x31]) :: [] ∧
    (Call.decode [0x31]).plan = .fail .ePadUnder ∧ (Call.encode [0x01] false).plan = .fail .eLen4 := by decide

/-- Host 1 has called ENCODE on one byte and its one command is still to issue. -/
def running (port : List HostAction) (result : Word40) (status : Byte) : State where
  alpha := alphaRom
  rlut := rlutRom
  result := result
  status := status
  port := port
  delivered := []
  procs := [⟨1, .encode [0xFF] true, .running 3 [0x0100FF000000] [] false⟩]

theorem running_inv (port : List HostAction) : (running port 0 0).Inv ∧ (running port 0x23 0x01).Inv := by
  have hp : ∀ p ∈ [(⟨1, .encode [0xFF] true, .running 3 [0x0100FF000000] [] false⟩ : Proc)], p.Ok := by
    intro p h
    rw [List.mem_singleton] at h
    subst h
    exact ⟨by decide, [], [0xFF000000], by decide, by decide, rfl, rfl⟩
  have h0 : RegistersAgree 0#40 0#8 := by unfold RegistersAgree; decide
  have h1 : RegistersAgree 0x23#40 0x01#8 := by unfold RegistersAgree; decide
  exact ⟨⟨⟨rfl, rfl⟩, h0, nofun, hp⟩, ⟨⟨rfl, rfl⟩, h1, nofun, hp⟩⟩

theorem witness_SequencerIsIsolated :
    ((running [.issue 2 0x0100864FD26F#48] 0 0).port = .issue 2 0x0100864FD26F#48 :: [] ∧
      HostAction.issue 2 0x0100864FD26F#48 ≠ .advance 0 ∧
      (∃ t, step (running [.issue 2 0x0100864FD26F#48] 0 0) = .next t) ∧
      0 < (running [.issue 2 0x0100864FD26F#48] 0 0).procs.length) ∧
    ((running [.advance 0] 0 0).port = .advance 0 :: [] ∧ (running [.advance 0, .reset] 0x23 0x01).port = .advance 0 :: [.reset] ∧
      (running [.advance 0] 0 0).Inv ∧ (running [.advance 0, .reset] 0x23 0x01).Inv ∧
      (running [.advance 0] 0 0).procs[0]? = (running [.advance 0, .reset] 0x23 0x01).procs[0]? ∧
      (∃ t, step (running [.advance 0] 0 0) = .next t) ∧ ∃ t, step (running [.advance 0, .reset] 0x23 0x01) = .next t) :=
  ⟨⟨rfl, by decide, ⟨_, rfl⟩, by decide⟩,
    ⟨rfl, rfl, (running_inv _).1, (running_inv _).2, rfl, ⟨_, rfl⟩, ⟨_, rfl⟩⟩⟩

-- one step of a run, after which the call has returned "@@r303"
theorem witness_EveryCallReturnsItsValue : (running [.advance 0] 0 0).Inv ∧
    ∃ t p r, Sys2Proof.core.run 1 (running [.advance 0] 0 0) = .next t ∧ t.procs[0]? = some p ∧
      p.phase = .returned r ∧ r = .value [0x40, 0x40, 0x72, 0x33, 0x30, 0x33] :=
  ⟨(running_inv _).1, _, _, _, rfl, rfl, rfl, by decide +kernel⟩

theorem witness_CallRunsToCompletion : RomsIntact (start [.call 1 (.encode [0xFF] true), .advance 0, .readStatus 2]) ∧
    (Call.encode [0xFF] true).plan = .go 3 [0x0100FF000000] ∧
    (start [.call 1 (.encode [0xFF] true), .advance 0, .readStatus 2]).port =
      .call 1 (.encode [0xFF] true) :: (List.replicate [0x0100FF000000#48].length
        (.advance (start [.call 1 (.encode [0xFF] true), .advance 0, .readStatus 2]).procs.length) ++ [.readStatus 2]) :=
  ⟨start_roms _, by decide, rfl⟩

theorem witness_AdvanceIssuesTheNextCommand : (running [.advance 0, .reset] 0x23 0x01).port = .advance 0 :: [.reset] ∧
    (running [.advance 0, .reset] 0x23 0x01).procs[0]? =
      some ⟨1, .encode [0xFF] true, .running 3 (0x0100FF000000 :: []) [] false⟩ := ⟨rfl, rfl⟩

end Sys2Proof.Tests
end

section
/-! The frame of a command (00 R10, 10 R24, 20 R53). -/

namespace Sys2Proof.Proofs

open Sys2Proof.Machine Sys2Proof.Laws

/-- A command completes with its answer, and completing writes RESULT and STATUS only. -/
theorem exec_frame {i : Instr} {s t : State} (h : exec i s = .next t) :
    t.alpha = s.alpha ∧ t.rlut = s.rlut ∧ t.port = s.port ∧ t.delivered = s.delivered ∧ t.procs = s.procs := by
  rw [exec_eq] at h
  cases h
  exact ⟨State.complete_alpha .., State.complete_rlut .., State.complete_port .., State.complete_delivered ..,
    State.complete_procs ..⟩

/-- The frame of a command word, legal or reserved. -/
theorem runWord_frame {w : Word48} {s t : State} (h : runWord w s = .next t) :
    t.alpha = s.alpha ∧ t.rlut = s.rlut ∧ t.port = s.port ∧ t.delivered = s.delivered ∧ t.procs = s.procs := by
  rw [runWord_eq_afterWord] at h
  cases h
  exact ⟨afterWord_alpha w s, afterWord_rlut w s, afterWord_port w s, afterWord_delivered w s, afterWord_procs w s⟩

/-- Settles O33: `exec_frame` for the commands, `runWord_frame` for the words. -/
theorem commandFrame : Obligations.CommandFrame :=
  ⟨fun _ _ _ => exec_frame, fun _ _ _ => runWord_frame⟩

end Sys2Proof.Proofs
end

section
/-! What a step keeps, from what each host action keeps (45 R140); with it, that no step writes a ROM (10 R28). -/

namespace Sys2Proof.Proofs

open Sys2Proof.Machine Sys2Proof.Laws

/-- Every host action keeps `P`, and so does taking it from the pending ones. -/
structure KeptByActions (P : State → Prop) : Prop where
  port : ∀ {s : State} (rest : List HostAction), P s → P { s with port := rest }
  issue : ∀ {s : State} (h : HostId) (w : Word48), P s → P ((afterWord w s).respond h)
  readResult : ∀ {s : State} (h : HostId), P s → P (s.deliver (.resultRead h s.result))
  readStatus : ∀ {s : State} (h : HostId), P s → P (s.deliver (.statusRead h s.status))
  reset : ∀ {s : State}, P s → P s.resetRegisters
  call : ∀ {s : State} (h : HostId) (c : Call), P s → P (s.startCall h c)
  advance : ∀ {s : State} {k : Nat} {h : HostId} {c : Call} {pad : Nat} {w : Word48} {todo : List Word48}
    {out : List Byte} {bad : Bool}, s.procs[k]? = some ⟨h, c, .running pad (w :: todo) out bad⟩ → P s →
    P (((afterWord w s).respond h).takeResponse k h c pad todo out bad)

/-- What every host action keeps, every step keeps. -/
theorem KeptByActions.keptByStep {P : State → Prop} (hP : KeptByActions P) {s t : State} (hs : P s)
    (h : step s = .next t) : P t := by
  rcases step_cases h with ⟨-, rfl⟩ | ⟨a, rest, s₀, -, rfl, ha⟩
  · exact hs
  · have h₀ := hP.port rest hs
    rcases ha with ⟨g, w, -, rfl⟩ | ⟨g, -, rfl⟩ | ⟨g, -, rfl⟩ | ⟨-, rfl⟩ | ⟨g, c, -, rfl⟩ | ⟨k, -, hk⟩
    · exact hP.issue g w h₀
    · exact hP.readResult g h₀
    · exact hP.readStatus g h₀
    · exact hP.reset h₀
    · exact hP.call g c h₀
    · rcases hk with ⟨rfl, -⟩ | ⟨g, c, pad, w, todo, out, bad, hk, rfl⟩
      · exact h₀
      · exact hP.advance hk h₀

/-- No host action writes a ROM: only a command word touches the block's registers, and it leaves the ROMs. -/
theorem romsKept (alpha : Vector Byte 85) (rlut : Vector RlutEntry 128) :
    KeptByActions (fun s => s.alpha = alpha ∧ s.rlut = rlut) where
  port _ h := h
  issue _ _ h := by simpa using h
  readResult _ h := h
  readStatus _ h := h
  reset h := h
  call _ _ h := h
  advance _ h := by simpa using h

/-- Settles O14: `romsKept` for the ROMs of the state before the step. -/
theorem romsAreNeverWritten : Obligations.RomsAreNeverWritten :=
  fun s _ h => (romsKept s.alpha s.rlut).keptByStep ⟨rfl, rfl⟩ h

end Sys2Proof.Proofs
end

section
/-! What single command words and host actions do: STATUS (10 R26, R27), the unused RESULT bits (30 R66), the
step of an issued word (45 R140, 60 R171) and reset (70 R190, R191). -/

namespace Sys2Proof.Proofs

open Sys2Proof.Machine Sys2Proof.Laws

/-! ### STATUS after a command or a word -/

/-- STATUS after a command is that of its own conditions, whatever the state held (10 R26). -/
theorem status_of_exec {i : Instr} {s t : State} (h : exec i s = .next t) :
    t.status = statusWord (answerConditions i s.rlut) := by
  rw [exec_eq] at h; cases h; rfl

/-- RESULT after a command, from the ROMs (20 R56). -/
theorem result_of_exec {i : Instr} {s t : State} (h : exec i s = .next t) :
    t.result = answerResult i s.alpha s.rlut := by
  rw [exec_eq] at h; cases h; rfl

/-- What a word runs to is the block after that word. -/
theorem eq_afterWord {w : Word48} {s t : State} (h : runWord w s = .next t) : t = afterWord w s := by
  rw [runWord_eq_afterWord] at h; cases h; rfl

/-- A word, legal or reserved, leaves the same STATUS in two states with the same ROMs (10 R26). -/
theorem afterWord_status_of_same_roms {s s' : State} (w : Word48) (ha : s.alpha = s'.alpha)
    (hr : s.rlut = s'.rlut) : (afterWord w s).status = (afterWord w s').status := by
  cases hw : decode w with
  | command i => exact (afterWord_of_same_roms ha hr ⟨i, hw⟩).2
  | reserved why => simp only [afterWord_of_reserved hw, State.reservedCommand_status]

/-- No command reports ILLEGAL (60 R171, R173). -/
@[simp] theorem answerConditions_illegal (i : Instr) (rlut : Vector RlutEntry 128) :
    (answerConditions i rlut).illegal = false := by
  cases i <;> rfl

/-- OVF is DEC32's (60 R173). -/
theorem answerConditions_ovf {i : Instr} (h : ∀ c0 c1 c2 c3 c4, i ≠ .dec32 c0 c1 c2 c3 c4)
    (rlut : Vector RlutEntry 128) : (answerConditions i rlut).ovf = false := by
  cases i with
  | dec32 c0 c1 c2 c3 c4 => exact absurd rfl (h c0 c1 c2 c3 c4)
  | enc32 _ _ | alphaRd _ _ | rlutRd _ _ => rfl

/-- INVCHR is DEC32's and RLUT_RD's (60 R173). -/
theorem answerConditions_invchr {i : Instr} (h : ∀ c0 c1 c2 c3 c4, i ≠ .dec32 c0 c1 c2 c3 c4)
    (h' : ∀ g c, i ≠ .rlutRd g c) (rlut : Vector RlutEntry 128) : (answerConditions i rlut).invchr = false := by
  cases i with
  | dec32 c0 c1 c2 c3 c4 => exact absurd rfl (h c0 c1 c2 c3 c4)
  | rlutRd g c => exact absurd rfl (h' g c)
  | enc32 _ _ | alphaRd _ _ => rfl

/-- RANGE is ALPHA_RD's (60 R173). -/
theorem answerConditions_range {i : Instr} (h : ∀ g x, i ≠ .alphaRd g x) (rlut : Vector RlutEntry 128) :
    (answerConditions i rlut).range = false := by
  cases i with
  | alphaRd g x => exact absurd rfl (h g x)
  | enc32 _ _ | dec32 _ _ _ _ _ | rlutRd _ _ => rfl

/-- Settles O32: the answer to a word depends on the word and the ROMs, and each condition is some command's own. -/
theorem commandsAreIndependent : Obligations.CommandsAreIndependent := by
  refine ⟨?_, ?_, ?_⟩
  · intro w s s' t t' ha hr ht ht'
    obtain rfl := eq_afterWord ht
    obtain rfl := eq_afterWord ht'
    exact afterWord_status_of_same_roms w ha hr
  · intro i s t h
    rw [status_of_exec h, statusWord_illegal, statusWord_invchr, statusWord_ovf, statusWord_range]
    exact ⟨answerConditions_illegal i _, statusWord_reserved _, fun hd => answerConditions_ovf hd _,
      fun hd hr => answerConditions_invchr hd hr _, fun ha => answerConditions_range ha _⟩
  · intro w i s s' t t' hw ha hr ht ht'
    obtain rfl := eq_afterWord ht
    obtain rfl := eq_afterWord ht'
    exact (afterWord_of_same_roms ha hr ⟨i, hw⟩).1

/-! ### Bits that read 0 -/

/-- STATUS[7:5] after a word (10 R27). -/
theorem afterWord_status_reserved (w : Word48) (s : State) : (afterWord w s).status.extractLsb' 5 3 = 0#3 := by
  obtain ⟨c, hc⟩ := afterWord_status w s
  rw [hc, statusWord_reserved]

/-- Only command words and reset write STATUS, and both leave STATUS[7:5] at 0 (10 R27). -/
theorem statusReservedKept : KeptByActions (fun s => s.status.extractLsb' 5 3 = 0#3) where
  port _ h := h
  issue _ w _ := afterWord_status_reserved w _
  readResult _ h := h
  readStatus _ h := h
  reset _ := by simp
  call _ _ h := h
  advance _ _ := afterWord_status_reserved _ _

/-- A zero-extended value has zeros above its own bits (00 R7). -/
theorem setWidth_field_above {n m : Nat} (x : BitVec n) (len : Nat) :
    (x.setWidth m).extractLsb' n len = 0#len := by
  rw [field_eq_iff, BitVec.toNat_setWidth,
    Nat.div_eq_of_lt (Nat.lt_of_le_of_lt (Nat.mod_le _ _) x.isLt)]
  simp

/-- ALPHA_RD in range answers the alphabet code (42 R120). -/
theorem answerResult_alphaRd_of_lt (g : BitVec 32) {x : Byte} (h : x.toNat < 85) (alpha : Vector Byte 85)
    (rlut : Vector RlutEntry 128) :
    answerResult (.alphaRd g x) alpha rlut = word40OfCode (alphaAt alpha ⟨x.toNat, h⟩) := dif_pos h

/-- ALPHA_RD out of range answers 0 (42 R120). -/
theorem answerResult_alphaRd_of_not_lt (g : BitVec 32) {x : Byte} (h : ¬ x.toNat < 85) (alpha : Vector Byte 85)
    (rlut : Vector RlutEntry 128) : answerResult (.alphaRd g x) alpha rlut = 0#40 := dif_neg h

/-- ALPHA_RD leaves RESULT[39:8] at 0, in range or not (30 R66). -/
theorem answerResult_alphaRd_high (g : BitVec 32) (x : Byte) (alpha : Vector Byte 85)
    (rlut : Vector RlutEntry 128) : (answerResult (.alphaRd g x) alpha rlut).extractLsb' 8 32 = 0#32 := by
  by_cases h : x.toNat < 85
  · rw [answerResult_alphaRd_of_lt g h]
    exact setWidth_field_above _ 32
  · rw [answerResult_alphaRd_of_not_lt g h]
    decide

/-- Settles O34: `statusReservedKept` over steps, and zero extension for the bits of RESULT. -/
theorem unusedBitsReadZero : Obligations.UnusedBitsReadZero := by
  refine ⟨by decide, fun s t hs h => statusReservedKept.keptByStep hs h, ?_, ?_, ?_, ?_⟩
  · intro w s t h
    obtain rfl := eq_afterWord h
    exact afterWord_status_reserved w s
  · intro c0 c1 c2 c3 c4 s t h
    rw [result_of_exec h]
    exact setWidth_field_above _ 8
  · intro g x s t h
    rw [result_of_exec h]
    exact answerResult_alphaRd_high g x _ _
  · intro g c s t h
    rw [result_of_exec h]
    exact setWidth_field_above _ 31

/-! ### The step of an issued word, and of reset -/

/-- The harness's state for a whole 48-bit word is the one in which host 0 presents that word. -/
theorem withFetchWord_toNat (s : State) (w : Word48) : s.withFetchWord 48 w.toNat = s.present 0 w := by
  rw [State.withFetchWord, Nat.mod_eq_of_lt w.isLt, BitVec.ofNat_toNat, BitVec.setWidth_eq]

/-- The step of a word just presented: it runs on the state it was presented to. -/
theorem step_present (s : State) (h : HostId) (w : Word48) :
    step (s.present h w) = .next ((afterWord w s).respond h) :=
  step_issue (State.present_port s h w)

/-- Settles O36: `step_issue` and `step_present`, with `afterWord` read off the decoder. -/
theorem stepRunsDecodedCommand : Obligations.StepRunsDecodedCommand := by
  refine ⟨?_, ?_, ?_, ?_⟩
  · intro s h w rest i hp hw
    rw [step_issue hp, afterWord_of_command hw, exec_eq]
    rfl
  · intro s w i hw
    rw [withFetchWord_toNat, step_present, afterWord_of_command hw, exec_eq]
    rfl
  · intro s h w rest why hp hw
    rw [step_issue hp, afterWord_of_reserved hw]
    rfl
  · intro s w why hw
    rw [withFetchWord_toNat, step_present, afterWord_of_reserved hw]
    rfl

/-- A step whose next action is reset, with or without a command in flight (70 R190, R191). -/
theorem step_reset {s : State} {a : HostAction} {rest : List HostAction} (hp : s.port = a :: rest)
    (ha : a = .reset ∨ ∃ h w, a = .resetInFlight h w) :
    step s = .next (State.resetRegisters { s with port := rest }) := by
  unfold step nextAction
  rw [hp]
  rcases ha with rfl | ⟨h, w, rfl⟩ <;> rfl

/-- Settles O39: `step_reset` for both forms of reset. -/
theorem resetState : Obligations.ResetState :=
  ⟨⟨rfl, rfl, rfl, rfl⟩, fun _ _ hp => step_reset hp (.inl rfl),
    fun _ h w _ hp => step_reset hp (.inr ⟨h, w, rfl⟩)⟩

end Sys2Proof.Proofs
end

section
/-! The registers and the deliveries of the invariant: RESULT and STATUS agree after every command word and
after reset (10 R25, 41 R102), and so in every response. -/

namespace Sys2Proof.Proofs

open Sys2Proof.Machine Sys2Proof.Laws

/-! ### Agreement, by the value of STATUS -/

/-- STATUS 0x01, 0x03 and 0x05 say nothing about RESULT. -/
theorem registersAgree_of_free (r : Word40) {st : Byte} (h : st = 0x01#8 ∨ st = 0x03#8 ∨ st = 0x05#8) :
    RegistersAgree r st := by
  unfold RegistersAgree
  rcases h with rfl | rfl | rfl <;> simp [legalStatus]

/-- STATUS 0x00 and 0x11 stand beside RESULT 0 (10 R30, 42 R120). -/
theorem registersAgree_zero {st : Byte} (h : st = 0x00#8 ∨ st = 0x11#8) : RegistersAgree 0#40 st := by
  unfold RegistersAgree
  rcases h with rfl | rfl <;> simp [legalStatus]

/-- OVF with INVCHR: RESULT is a frame (41 R100). -/
theorem registersAgree_ovf_invchr {r : Word40} (h : r.toNat < 2 ^ 32) : RegistersAgree r 0x0D#8 := by
  unfold RegistersAgree
  simpa [legalStatus] using h

/-- OVF alone: RESULT is below 85^5 - 2^32 (41 R102). -/
theorem registersAgree_ovf {r : Word40} (h : r.toNat < 142085829) : RegistersAgree r 0x09#8 := by
  unfold RegistersAgree
  simpa [legalStatus] using h

/-! ### The answer to a command word -/

/-- DEC32's RESULT as a number (41 R100). -/
theorem word40OfFrame_ofNat_toNat (n : Nat) : (word40OfFrame (BitVec.ofNat 32 n)).toNat = n % 2 ^ 32 := by
  rw [word40OfFrame, BitVec.toNat_setWidth, BitVec.toNat_ofNat]
  omega

/-- Five alphabet characters have a value below 85^5 (41 R102). -/
theorem groupValue_lt_of_no_invchr {c0 c1 c2 c3 c4 : Byte}
    (h : invchrOf rlutRom [c0, c1, c2, c3, c4] = false) : groupValue rlutRom c0 c1 c2 c3 c4 < 85 ^ 5 := by
  obtain ⟨d0, d1, d2, d3, d4, rfl, rfl, rfl, rfl, rfl⟩ := alpha_of_no_invchr h
  rw [groupValue_alpha]
  omega

/-- DEC32 with the ROM contents: its four values of STATUS each agree with its RESULT (41 R100, R102). -/
theorem registersAgree_dec32 (c0 c1 c2 c3 c4 : Byte) :
    RegistersAgree (word40OfFrame (BitVec.ofNat 32 (groupValue rlutRom c0 c1 c2 c3 c4)))
      (statusWord (groupConditions rlutRom c0 c1 c2 c3 c4)) := by
  rw [groupConditions, statusWord_invchr_ovf]
  have hr := word40OfFrame_ofNat_toNat (groupValue rlutRom c0 c1 c2 c3 c4)
  cases hi : invchrOf rlutRom [c0, c1, c2, c3, c4] <;> cases ho : ovfOf (groupValue rlutRom c0 c1 c2 c3 c4)
  case false.false => exact registersAgree_of_free _ (.inl rfl)
  case false.true =>
    have hlt := groupValue_lt_of_no_invchr hi
    have hge : 2 ^ 32 ≤ groupValue rlutRom c0 c1 c2 c3 c4 := of_decide_eq_true ho
    exact registersAgree_ovf (by omega)
  case true.false => exact registersAgree_of_free _ (.inr (.inr rfl))
  case true.true => exact registersAgree_ovf_invchr (by omega)

/-- With the ROM contents, the RESULT and the STATUS of every command agree. -/
theorem registersAgree_answer (i : Instr) :
    RegistersAgree (answerResult i alphaRom rlutRom) (statusWord (answerConditions i rlutRom)) := by
  cases i with
  | enc32 g v => exact registersAgree_of_free _ (.inl statusWord_none)
  | dec32 c0 c1 c2 c3 c4 => exact registersAgree_dec32 c0 c1 c2 c3 c4
  | alphaRd g x =>
    by_cases h : x.toNat < 85
    · exact registersAgree_of_free _ (.inl (by simp [answerConditions, h]))
    · rw [answerResult_alphaRd_of_not_lt g h]
      exact registersAgree_zero (.inr (by simp [answerConditions, h]))
  | rlutRd g c =>
    have hst : ∀ b : Bool, statusWord { invchr := b } = 0x01#8 ∨ statusWord { invchr := b } = 0x03#8 ∨
        statusWord { invchr := b } = 0x05#8 := by decide
    exact registersAgree_of_free _ (hst _)

/-- After any word, legal or reserved, the registers agree (10 R25). -/
theorem registersAgree_afterWord {s : State} (w : Word48) (hs : RomsIntact s) :
    RegistersAgree (afterWord w s).result (afterWord w s).status := by
  cases hw : decode w with
  | command i =>
    obtain ⟨ha, hr⟩ := hs
    rw [afterWord_of_command hw, ha, hr]
    exact registersAgree_answer i
  | reserved why =>
    rw [afterWord_of_reserved hw]
    exact registersAgree_of_free _ (.inr (.inl (State.reservedCommand_status s)))

/-- The response of a word has VALID, and its registers agree (60 R170). -/
theorem response_ok {s : State} (h : HostId) (w : Word48) (hs : RomsIntact s) :
    (Delivery.response h (afterWord w s).result (afterWord w s).status).Ok := by
  refine ⟨?_, registersAgree_afterWord w hs⟩
  obtain ⟨c, hc⟩ := afterWord_status w s
  rw [hc]
  exact statusWord_valid c

end Sys2Proof.Proofs
end

section
/-! The host procedures of the invariant: a call's words get the answers its value is made of (45 R142, R149,
R158). -/

namespace Sys2Proof.Proofs

open Sys2Proof.Machine Sys2Proof.Laws

/-! ### The answers to a call's words -/

/-- ENC32 with any ignored bits decodes from its word (30 R64). -/
theorem decode_encode_enc32 (g : Byte) (v : Frame) : decode (encode (.enc32 g v)) = .command (.enc32 g v) := by
  have hn := encode_enc32_toNat g v
  have hg := g.isLt
  have hv := v.isLt
  generalize encode (.enc32 g v) = w at hn ⊢
  have hc : cmd w = 0x01#8 := (cmd_eq_iff _ _).mpr (by rw [hn, BitVec.toNat_ofNat]; omega)
  have h0 : w.extractLsb' 32 8 = g := (field_eq_iff _ _).mpr (by omega)
  have h1 : w.extractLsb' 0 32 = v := (field_eq_iff _ _).mpr (by omega)
  rw [decode_of_cmd_enc32 _ hc, h0, h1]

/-- DEC32 decodes from its word (30 R64). -/
theorem decode_encode_dec32 (c0 c1 c2 c3 c4 : Byte) :
    decode (encode (.dec32 c0 c1 c2 c3 c4)) = .command (.dec32 c0 c1 c2 c3 c4) := by
  have hn := encode_dec32_toNat c0 c1 c2 c3 c4
  have b0 := c0.isLt; have b1 := c1.isLt; have b2 := c2.isLt; have b3 := c3.isLt; have b4 := c4.isLt
  generalize encode (.dec32 c0 c1 c2 c3 c4) = w at hn ⊢
  have hc : cmd w = 0x02#8 := (cmd_eq_iff _ _).mpr (by rw [hn, BitVec.toNat_ofNat]; omega)
  have h0 : w.extractLsb' 32 8 = c0 := (field_eq_iff _ _).mpr (by omega)
  have h1 : w.extractLsb' 24 8 = c1 := (field_eq_iff _ _).mpr (by omega)
  have h2 : w.extractLsb' 16 8 = c2 := (field_eq_iff _ _).mpr (by omega)
  have h3 : w.extractLsb' 8 8 = c3 := (field_eq_iff _ _).mpr (by omega)
  have h4 : w.extractLsb' 0 8 = c4 := (field_eq_iff _ _).mpr (by omega)
  rw [decode_of_cmd_dec32 _ hc, h0, h1, h2, h3, h4]

/-- ENC32's answer to a frame's word is the group ENCODE's value counts with (40 R80). -/
theorem afterWord_enc32Word {s : State} (hs : RomsIntact s) (v : Frame) :
    (afterWord (enc32Word v) s).result = encFrame alphaRom v := by
  obtain ⟨ha, -⟩ := hs
  rw [enc32Word, afterWord_of_command (decode_encode_enc32 _ v), ha]
  rfl

/-- DEC32's answer to a group's word: its frame, and INVCHR (41 R100). -/
theorem afterWord_dec32Word {s : State} (hs : RomsIntact s) (g : Word40) :
    frameOfWord40 (afterWord (dec32Word g) s).result = decFrame g ∧
      statusInvchr (afterWord (dec32Word g) s).status = invchrOf rlutRom (groupChars g) := by
  obtain ⟨-, hr⟩ := hs
  rw [dec32Word, afterWord_of_command (decode_encode_dec32 ..), hr]
  exact ⟨frameOfWord40_word40OfFrame _, statusWord_invchr _⟩

/-! ### Progress of a call -/

/-- A mapped plan goes on when the plan does. -/
theorem planMap_eq_go {α β : Type} {f : α → β} {plan : Plan α} {pad : Nat} {items : List β} :
    plan.map f = .go pad items ↔ ∃ xs, plan = .go pad xs ∧ xs.map f = items := by
  cases plan <;> simp [Plan.map]

/-- A mapped plan fails when the plan does. -/
theorem planMap_eq_fail {α β : Type} {f : α → β} {plan : Plan α} {e : SeqError} :
    plan.map f = .fail e ↔ plan = .fail e := by
  cases plan <;> simp [Plan.map]

/-- A call whose checks pass has done nothing yet and has all its words to issue. -/
theorem progress_of_plan {c : Call} {pad : Nat} {words : List Word48} (h : c.plan = .go pad words) :
    c.Progress pad words [] false := by
  cases c with
  | encode data autoPad =>
    obtain ⟨frames, hp, rfl⟩ := planMap_eq_go.mp h
    exact ⟨[], frames, hp, rfl, rfl, rfl⟩
  | decode text =>
    obtain ⟨groups, hp, rfl⟩ := planMap_eq_go.mp h
    exact ⟨[], groups, hp, rfl, rfl, rfl⟩

/-- A call whose checks fail has their error as its value (45 R157). -/
theorem value_of_plan_fail {c : Call} {e : SeqError} (strict : Bool) (h : c.plan = .fail e) :
    c.value strict = .seqError e := by
  cases c with
  | encode data autoPad => simp only [Call.value, seqEncode, planMap_eq_fail.mp h]
  | decode text => simp only [Call.value, seqDecode, planMap_eq_fail.mp h]

/-- The answer to its next word takes a call one frame or group further, in any state with the ROM contents. -/
theorem progress_afterWord {s : State} (hs : RomsIntact s) {c : Call} {pad : Nat} {w : Word48}
    {todo : List Word48} {out : List Byte} {bad : Bool} (h : c.Progress pad (w :: todo) out bad) :
    c.Progress pad todo (out ++ c.output (afterWord w s).result) (bad || c.flags (afterWord w s).status) := by
  cases c with
  | encode data autoPad =>
    obtain ⟨done, rest, hp, ht, rfl, rfl⟩ := h
    obtain ⟨v, rest, rfl, rfl, rfl⟩ := List.map_eq_cons_iff.mp ht.symm
    refine ⟨done ++ [v], rest, by simpa using hp, rfl, ?_, rfl⟩
    simp only [Call.output, afterWord_enc32Word hs, encodedChars_append, encodedChars_cons, encodedChars_nil,
      List.append_nil]
  | decode text =>
    obtain ⟨done, rest, hp, ht, rfl, rfl⟩ := h
    obtain ⟨g, rest, rfl, rfl, rfl⟩ := List.map_eq_cons_iff.mp ht.symm
    obtain ⟨hf, hi⟩ := afterWord_dec32Word hs g
    refine ⟨done ++ [g], rest, by simpa using hp, rfl, ?_, ?_⟩
    · simp only [Call.output, hf, decodedBytes_append, decodedBytes_cons, decodedBytes_nil, List.append_nil]
    · simp [Call.flags, hi, anyInvchr]

/-- A call with no word left returns its value (45 R158). -/
theorem finish_of_progress {c : Call} {pad : Nat} {out : List Byte} {bad : Bool} (strict : Bool)
    (h : c.Progress pad [] out bad) : c.finish strict pad out bad = c.value strict := by
  cases c with
  | encode data autoPad =>
    obtain ⟨done, rest, hp, ht, rfl, rfl⟩ := h
    obtain rfl := List.map_eq_nil_iff.mp ht.symm
    rw [List.append_nil] at hp
    simp only [Call.finish, Call.value, seqEncode, hp]
  | decode text =>
    obtain ⟨done, rest, hp, ht, rfl, rfl⟩ := h
    obtain rfl := List.map_eq_nil_iff.mp ht.symm
    rw [List.append_nil] at hp
    simp only [Call.finish, Call.value, seqDecode, hp, decodedBytes_length]

/-- A record in the phase its progress calls for, running or returned, is in order. -/
theorem procOk_of_progress (h : HostId) {c : Call} {pad : Nat} {todo : List Word48} {out : List Byte}
    {bad : Bool} (hc : c.Progress pad todo out bad) :
    Proc.Ok ⟨h, c, c.phase Config.strictDecode pad todo out bad⟩ := by
  cases todo with
  | nil => exact finish_of_progress _ hc
  | cons w ws => exact ⟨List.cons_ne_nil w ws, hc⟩

/-- The record of a call that begins is in order. -/
theorem procOk_start (h : HostId) (c : Call) : Proc.Ok ⟨h, c, c.start Config.strictDecode⟩ := by
  cases hp : c.plan with
  | fail e =>
    simp only [Call.start, hp]
    exact (value_of_plan_fail _ hp).symm
  | go pad words =>
    simp only [Call.start, hp]
    exact procOk_of_progress h (progress_of_plan hp)

end Sys2Proof.Proofs
end

section
/-! The invariant: at reset, and kept by every host action and so by every step. -/

namespace Sys2Proof.Proofs

open Sys2Proof.Machine Sys2Proof.Laws

/-- Settles O41: RESULT 0 agrees with STATUS 0, and nothing was delivered or called. -/
theorem invariantAtReset : Obligations.InvariantAtReset where
  roms := ⟨rfl, rfl⟩
  registers := registersAgree_zero (.inl rfl)
  delivered := List.forall_mem_nil _
  procs := List.forall_mem_nil _

section

variable {s : State} (hs : s.Inv)
include hs

/-- A good delivery keeps the invariant. -/
theorem inv_deliver {d : Delivery} (hd : d.Ok) : (s.deliver d).Inv where
  roms := hs.roms
  registers := hs.registers
  delivered := List.forall_mem_cons.mpr ⟨hd, hs.delivered⟩
  procs := hs.procs

/-- A command word and its response keep the invariant. -/
theorem inv_afterWord_respond (h : HostId) (w : Word48) : ((afterWord w s).respond h).Inv := by
  have hw : (afterWord w s).Inv := {
    roms := by simpa [RomsIntact] using hs.roms
    registers := registersAgree_afterWord w hs.roms
    delivered := by simpa using hs.delivered
    procs := by simpa using hs.procs }
  exact inv_deliver hw (response_ok h w hs.roms)

/-- Reset keeps the invariant. -/
theorem inv_resetRegisters : s.resetRegisters.Inv where
  roms := hs.roms
  registers := registersAgree_zero (.inl rfl)
  delivered := hs.delivered
  procs := hs.procs

/-- A call that begins keeps the invariant. -/
theorem inv_startCall (h : HostId) (c : Call) : (s.startCall h c).Inv where
  roms := hs.roms
  registers := hs.registers
  delivered := hs.delivered
  procs := List.forall_mem_append.mpr ⟨hs.procs, List.forall_mem_singleton.mpr (procOk_start h c)⟩

/-- A running call that issues its next word and takes the response keeps the invariant. -/
theorem inv_advance {k : Nat} {h : HostId} {c : Call} {pad : Nat} {w : Word48} {todo : List Word48}
    {out : List Byte} {bad : Bool} (hk : s.procs[k]? = some ⟨h, c, .running pad (w :: todo) out bad⟩) :
    (((afterWord w s).respond h).takeResponse k h c pad todo out bad).Inv := by
  obtain ⟨hroms, hregs, hdel, hprocs⟩ := inv_afterWord_respond hs h w
  obtain ⟨-, hc⟩ : Proc.Ok ⟨h, c, .running pad (w :: todo) out bad⟩ := hs.procs _ (List.mem_of_getElem? hk)
  refine ⟨hroms, hregs, hdel, fun p hp => ?_⟩
  rcases List.mem_or_eq_of_mem_set hp with hp | rfl
  · exact hprocs p hp
  · exact procOk_of_progress h (progress_afterWord hs.roms hc)

end

/-- Every host action keeps the invariant. -/
theorem invKept : KeptByActions State.Inv where
  port _ hs := ⟨hs.roms, hs.registers, hs.delivered, hs.procs⟩
  issue h w hs := inv_afterWord_respond hs h w
  readResult _ hs := inv_deliver hs trivial
  readStatus _ hs := inv_deliver hs hs.registers.1
  reset hs := inv_resetRegisters hs
  call h c hs := inv_startCall hs h c
  advance hk hs := inv_advance hs hk

/-- Settles O42: `invKept`, over the actions a step can take. -/
theorem invariantKeptByStep : Obligations.InvariantKeptByStep :=
  fun _ _ hs h => invKept.keptByStep hs h

end Sys2Proof.Proofs
end

section
/-! The contents of the two ROMs (20 R42 to R46): the alphabet's codes, the RLUT index and the two codes that
reach it, and the RLUT as the inverse of the alphabet. -/

namespace Sys2Proof.Proofs

open Sys2Proof.Machine Sys2Proof.Laws

/-! ### The RLUT index -/

/-- Exactly a code and its alias in bit 7 share an index (20 R43, R47). -/
theorem rlutIndex_eq_iff (c c' : Byte) : rlutIndex c' = rlutIndex c ↔ c' = c ∨ c' = c ^^^ 0x80#8 := by
  constructor
  · intro h
    by_cases h7 : c'.getLsbD 7 = c.getLsbD 7
    · exact .inl (code_of_rlutIndex h h7)
    · refine .inr (code_of_rlutIndex (h.trans (rlutIndex_alias c).symm) ?_)
      simpa [Bool.eq_not] using h7
  · rintro (rfl | rfl)
    · rfl
    · exact rlutIndex_alias c

/-- The code 0x20 + i reaches index i (20 R43). -/
theorem rlutIndex_add_space (i : BitVec 7) : rlutIndex (BitVec.ofNat 8 (i.toNat + 0x20)) = i := by
  apply BitVec.eq_of_toNat_eq
  rw [rlutIndex_toNat, BitVec.toNat_ofNat]
  omega

/-- Settles O9: arithmetic on `rlutIndex_toNat`; the two codes of an index are those of `rlutIndex_eq_iff`. -/
theorem rlutIndexOfCode : Obligations.RlutIndexOfCode := by
  refine ⟨?_, ?_, ?_, ?_⟩
  · intro c
    rw [rlutIndex_toNat]
    omega
  · intro c h0 h1
    rw [rlutIndex_toNat]
    omega
  · intro c h
    rw [rlutIndex_toNat]
    omega
  · intro i
    refine ⟨BitVec.ofNat 8 (i.toNat + 0x20), fun c' => ?_⟩
    rw [← rlutIndex_eq_iff, rlutIndex_add_space]

/-! ### The alphabet -/

/-- A character is no alphabet code exactly when the membership test says so (20 R48). -/
theorem isAlpha_eq_false_iff (c : Byte) : isAlpha rlutRom c = false ↔ ∀ d, alphaRom.get d ≠ c := by
  rw [← Bool.not_eq_true, isAlpha_iff, not_exists]

/-- The alphabet codes lie in 0x21..0x7D (20 R42). -/
theorem alphaRom_range : ∀ d : Fin 85, 0x21 ≤ (alphaRom.get d).toNat ∧ (alphaRom.get d).toNat ≤ 0x7D := by
  decide +kernel

/-- The codes of 0x20..0x7F that fail the membership test (20 R42). -/
theorem isAlpha_eq_false_iff_mem : ∀ c : Byte, 0x20 ≤ c.toNat → c.toNat ≤ 0x7F → (isAlpha rlutRom c = false ↔
    c ∈ [0x22#8, 0x27#8, 0x2C#8, 0x3B#8, 0x5C#8, 0x5F#8, 0x60#8, 0x7C#8, 0x7E#8, 0x20#8, 0x7F#8]) := by
  decide +kernel

/-- Settles O8: for the codes left out, the membership test stands in for the search through the alphabet. -/
theorem alphabetIsDistinct : Obligations.AlphabetIsDistinct := by
  refine ⟨alphaRom_injective, fun d => ?_, fun c h0 h1 => ?_⟩
  · obtain ⟨hlo, hhi⟩ := alphaRom_range d
    exact ⟨hlo, hhi, alphaRom_bit7 d⟩
  · rw [← isAlpha_eq_false_iff]
    exact isAlpha_eq_false_iff_mem c h0 h1

/-! ### The RLUT against the alphabet -/

/-- The valid entries are those of the alphabet codes, each with its code's digit (20 R44). -/
theorem rlutRom_get_eq_iff (i : BitVec 7) (d : Byte) : rlutRom.get i.toFin = ⟨true, d⟩ ↔
    ∃ h : d.toNat < 85, i = rlutIndex (alphaRom.get ⟨d.toNat, h⟩) := by
  constructor
  · intro he
    obtain ⟨e, hd, hi⟩ := rlutRom_valid i (by rw [he])
    rw [he] at hd
    obtain rfl : d = BitVec.ofNat 8 e.val := hd
    have hde : (BitVec.ofNat 8 e.val).toNat = e.val := by
      rw [BitVec.toNat_ofNat]
      omega
    refine ⟨hde.trans_lt e.isLt, ?_⟩
    simp only [hde, Fin.eta, hi]
  · rintro ⟨h, rfl⟩
    rw [rlutRom_of_alpha, BitVec.ofNat_toNat, BitVec.setWidth_eq]

/-- An entry that no alphabet code reaches is invalid (20 R45). -/
theorem rlutRom_of_not_alpha {i : BitVec 7} (h : ∀ d : Fin 85, i ≠ rlutIndex (alphaRom.get d)) :
    rlutRom.get i.toFin = ⟨false, Config.sentinel i⟩ := by
  apply rlutRom_invalid
  by_contra hv
  obtain ⟨d, -, hi⟩ := rlutRom_valid i (Bool.eq_true_of_not_eq_false hv)
  exact h d hi.symm

/-- Different digits have different entries, as their codes differ below bit 7 (20 R44). -/
theorem rlutIndex_alphaRom_injective (d e : Fin 85)
    (h : rlutIndex (alphaRom.get d) = rlutIndex (alphaRom.get e)) : d = e :=
  alphaRom_injective d e (code_of_rlutIndex h (by rw [alphaRom_bit7, alphaRom_bit7]))

/-- Settles O10: the valid entries by `rlutRom_get_eq_iff`, the others by `rlutRom_of_not_alpha`. -/
theorem rlutFollowsAlphabet : Obligations.RlutFollowsAlphabet :=
  ⟨rlutRom_get_eq_iff, rlutIndex_alphaRom_injective, fun _ => rlutRom_of_not_alpha, by decide +kernel,
    by decide +kernel⟩

/-- Settles O11: `rlutRom_of_alpha`, and `rlutRom_get_eq_iff` at a valid entry's own digit. -/
theorem romsAreInverse : Obligations.RomsAreInverse := by
  refine ⟨rlutRom_of_alpha, fun i hv => ?_⟩
  have he : rlutRom.get i.toFin = ⟨true, (rlutRom.get i.toFin).digit⟩ := by rw [← hv]
  obtain ⟨h, hi⟩ := (rlutRom_get_eq_iff i _).mp he
  exact ⟨h, hi.symm⟩

end Sys2Proof.Proofs
end

section
/-! Alphabet membership as the commands report it, in INVCHR and never in RESULT (20 R47, R48, 60 R173). -/

namespace Sys2Proof.Proofs

open Sys2Proof.Machine Sys2Proof.Laws

/-- INVCHR's condition: some character is no alphabet code (20 R48, 60 R173). -/
theorem invchrOf_iff (cs : List Byte) : invchrOf rlutRom cs = true ↔ ∃ c ∈ cs, ∀ d, alphaRom.get d ≠ c := by
  simp only [invchrOf, List.any_eq_true, Bool.not_eq_true', isAlpha_eq_false_iff]

/-- With the ROMs intact a command completes, and STATUS.INVCHR is its own condition (10 R25). -/
theorem exec_invchr (i : Instr) {s : State} (hs : RomsIntact s) :
    ∃ t, exec i s = .next t ∧ t.status.getLsbD 2 = (answerConditions i rlutRom).invchr := by
  obtain ⟨-, hr⟩ := hs
  exact ⟨_, exec_eq i s, by rw [State.complete_status, statusWord_invchr, hr]⟩

/-- Two commands with one answer complete with one RESULT. -/
theorem exec_same_result {i j : Instr} {s : State}
    (h : answerResult i s.alpha s.rlut = answerResult j s.alpha s.rlut) :
    ∃ t u, exec i s = .next t ∧ exec j s = .next u ∧ t.result = u.result :=
  ⟨_, _, exec_eq i s, exec_eq j s, h⟩

/-- Settles O12: membership by `isAlpha_iff`, its report by `exec_invchr`; RESULT reads the entries alone. -/
theorem alphabetMembership : Obligations.AlphabetMembership := by
  refine ⟨?_, isAlpha_iff, fun c => (rlutIndex_alias c).symm, by decide +kernel, ?_, ?_, ?_, ?_⟩
  · intro c
    rw [isAlpha, Bool.and_eq_true, Bool.not_eq_true', rlutAt]
  · intro s c0 c1 c2 c3 c4 hs
    obtain ⟨t, ht, hi⟩ := exec_invchr (.dec32 c0 c1 c2 c3 c4) hs
    refine ⟨t, ht, ?_⟩
    rw [hi]
    exact invchrOf_iff _
  · intro s g c hs
    obtain ⟨t, ht, hi⟩ := exec_invchr (.rlutRd g c) hs
    refine ⟨t, ht, ?_⟩
    rw [hi]
    exact (invchrOf_iff [c]).trans (by simp only [List.mem_singleton, exists_eq_left])
  · intro s a0 a1 a2 a3 a4 b0 b1 b2 b3 b4 h0 h1 h2 h3 h4
    apply exec_same_result
    simp only [answerResult, groupValue, charDigit, h0, h1, h2, h3, h4]
  · intro s g c c' h
    apply exec_same_result
    simp only [answerResult, h]

end Sys2Proof.Proofs
end

section
/-! Where characters and bytes lie in groups, frames and 40-bit words (20 R49, R51). -/

namespace Sys2Proof.Proofs

open Sys2Proof.Machine Sys2Proof.Laws

/-- A frame in a 40-bit word is the same number (00 R7, 20 R51). -/
theorem word40OfFrame_toNat (v : Frame) : (word40OfFrame v).toNat = v.toNat := by
  rw [word40OfFrame, BitVec.toNat_setWidth]
  omega

/-- Settles O13: the packing laws of `Laws/Operands.lean`, both ways. -/
theorem groupAndFramePacking : Obligations.GroupAndFramePacking := by
  refine ⟨charAt_packGroup, fun _ _ => rfl, packGroup_charAt, frameOfBytes_toNat, ?_, bytesOfFrame_frameOfBytes,
    fun v => ⟨word40OfFrame_toNat v, frameOfWord40_word40OfFrame v⟩⟩
  intro b0 b1 b2 b3
  have h := bytesOfFrame_frameOfBytes b0 b1 b2 b3
  simp only [bytesOfFrame, List.cons.injEq] at h
  obtain ⟨h0, -, -, h3, -⟩ := h
  exact ⟨h0, h3⟩

end Sys2Proof.Proofs
end

section
/-! The decoder and the encoder are inverse to each other (30 R60, R62, R64), and which words are legal (30 R63). -/

namespace Sys2Proof.Proofs

open Sys2Proof.Machine Sys2Proof.Laws

/-! ### Decoding the encoding, and back -/

/-- The fields of a ROM read's word: CMD, the ignored bits and the operand byte (30 R64). -/
theorem romRead_fields {w : Word48} {c : Byte} {g : BitVec 32} {x : Byte}
    (h : w.toNat = c.toNat * 2 ^ 40 + g.toNat * 2 ^ 8 + x.toNat) :
    cmd w = c ∧ w.extractLsb' 8 32 = g ∧ w.extractLsb' 0 8 = x := by
  have hg := g.isLt
  have hx := x.isLt
  refine ⟨(cmd_eq_iff _ _).mpr ?_, (field_eq_iff _ _).mpr ?_, (field_eq_iff _ _).mpr ?_⟩ <;> omega

/-- ALPHA_RD with any ignored bits decodes from its word (30 R64). -/
theorem decode_encode_alphaRd (g : BitVec 32) (x : Byte) :
    decode (encode (.alphaRd g x)) = .command (.alphaRd g x) := by
  obtain ⟨hc, hg, hx⟩ := romRead_fields (c := 0x03#8) (encode_alphaRd_toNat g x)
  rw [decode_of_cmd_alphaRd _ hc, hg, hx]

/-- RLUT_RD with any ignored bits decodes from its word (30 R64). -/
theorem decode_encode_rlutRd (g : BitVec 32) (c : Byte) :
    decode (encode (.rlutRd g c)) = .command (.rlutRd g c) := by
  obtain ⟨hc, hg, hx⟩ := romRead_fields (c := 0x04#8) (encode_rlutRd_toNat g c)
  rw [decode_of_cmd_rlutRd _ hc, hg, hx]

/-- Settles O2: one lemma for each command, from the numbers its fields are. -/
theorem decodeOfEncode : Obligations.DecodeOfEncode := by
  intro i
  cases i with
  | enc32 g v => exact decode_encode_enc32 g v
  | dec32 c0 c1 c2 c3 c4 => exact decode_encode_dec32 c0 c1 c2 c3 c4
  | alphaRd g x => exact decode_encode_alphaRd g x
  | rlutRd g c => exact decode_encode_rlutRd g c

/-- Settles O3: CMD picks the command, and CMD and the operand fields make up the word's number. -/
theorem encodeOfDecode : Obligations.EncodeOfDecode := by
  intro w i h
  have hw := w.isLt
  apply BitVec.eq_of_toNat_eq
  rcases cmd_of_decode w h with hc | hc | hc | hc <;> have hn := (cmd_eq_iff w _).mp hc <;>
    rw [BitVec.toNat_ofNat] at hn
  · obtain rfl := Decoded.command.inj ((decode_of_cmd_enc32 w hc).symm.trans h)
    simp only [encode_enc32_toNat, toNat_field]
    omega
  · obtain rfl := Decoded.command.inj ((decode_of_cmd_dec32 w hc).symm.trans h)
    simp only [encode_dec32_toNat, toNat_field]
    omega
  · obtain rfl := Decoded.command.inj ((decode_of_cmd_alphaRd w hc).symm.trans h)
    simp only [encode_alphaRd_toNat, toNat_field]
    omega
  · obtain rfl := Decoded.command.inj ((decode_of_cmd_rlutRd w hc).symm.trans h)
    simp only [encode_rlutRd_toNat, toNat_field]
    omega

/-! ### Legal words -/

/-- The CMD byte of a command (30 R62). -/
def cmdOf : Instr → Byte
  | .enc32 _ _ => 0x01#8
  | .dec32 _ _ _ _ _ => 0x02#8
  | .alphaRd _ _ => 0x03#8
  | .rlutRd _ _ => 0x04#8

/-- A command's word has its CMD byte. -/
theorem cmd_encode (i : Instr) : cmd (encode i) = cmdOf i := by
  rw [cmd_eq_iff]
  cases i with
  | enc32 g v => rw [encode_enc32_toNat, cmdOf, BitVec.toNat_ofNat]; omega
  | dec32 c0 c1 c2 c3 c4 => rw [encode_dec32_toNat, cmdOf, BitVec.toNat_ofNat]; omega
  | alphaRd g x => rw [encode_alphaRd_toNat, cmdOf, BitVec.toNat_ofNat]; omega
  | rlutRd g c => rw [encode_rlutRd_toNat, cmdOf, BitVec.toNat_ofNat]; omega

/-- A word that decodes to a command has that command's CMD byte. -/
theorem cmd_of_decode_eq {w : Word48} {i : Instr} (h : decode w = .command i) : cmd w = cmdOf i := by
  rw [← encodeOfDecode w i h, cmd_encode]

/-- A word decodes exactly when it has one of the four CMD bytes (30 R63). -/
theorem decodes_iff_cmd (w : Word48) : (∃ i, decode w = .command i) ↔
    cmd w = 0x01#8 ∨ cmd w = 0x02#8 ∨ cmd w = 0x03#8 ∨ cmd w = 0x04#8 := by
  constructor
  · rintro ⟨i, h⟩
    exact cmd_of_decode w h
  · rintro (h | h | h | h)
    exacts [⟨_, decode_of_cmd_enc32 w h⟩, ⟨_, decode_of_cmd_dec32 w h⟩, ⟨_, decode_of_cmd_alphaRd w h⟩,
      ⟨_, decode_of_cmd_rlutRd w h⟩]

/-- CMD is the byte of RSV and OP (30 R60). -/
theorem cmd_eq_rsv_op (w : Word48) : cmd w = (rsv w ++ op w : Byte) := by
  have h : (rsv w ++ op w : Byte).toNat = (rsv w).toNat * 2 ^ 4 + (op w).toNat := toNat_append _ _
  rw [cmd_eq_iff, h, rsv, op, toNat_field, toNat_field]
  have := w.isLt
  omega

/-- With the mask of 30 R63 a word matches a CMD byte exactly when it has that byte. -/
theorem and_mask_eq_iff (w : Word48) (c : Byte) : w &&& 0xFF0000000000#48 = (c ++ 0#40 : Word48) ↔ cmd w = c := by
  rw [and_mask]
  constructor
  · intro h
    rw [← cmd_append (cmd w) 0#40, h, cmd_append]
  · rintro rfl
    rfl

/-- The reserved command changes STATUS only, to VALID and ILLEGAL (60 R171). -/
theorem reservedCommand_eq (s : State) : s.reservedCommand = { s with status := 0x03#8 } := rfl

/-- Settles O1: legality is a matter of CMD (`decodes_iff_cmd`), and so is each row (`and_mask_eq_iff`). -/
theorem legalCommandWords : Obligations.LegalCommandWords := by
  refine ⟨?_, ?_, ?_, by decide +kernel, ?_⟩
  · intro w
    rw [decodes_iff_cmd, cmd_eq_rsv_op]
    change _ ↔ rsv w = 0x0#4 ∧ (op w = 0x1#4 ∨ op w = 0x2#4 ∨ op w = 0x3#4 ∨ op w = 0x4#4)
    generalize rsv w = r
    generalize op w = o
    revert r o
    decide
  · intro w
    refine ⟨.trans ⟨?_, fun h => ⟨_, _, decode_of_cmd_enc32 w h⟩⟩ (and_mask_eq_iff w 0x01#8).symm,
      .trans ⟨?_, fun h => ⟨_, _, _, _, _, decode_of_cmd_dec32 w h⟩⟩ (and_mask_eq_iff w 0x02#8).symm,
      .trans ⟨?_, fun h => ⟨_, _, decode_of_cmd_alphaRd w h⟩⟩ (and_mask_eq_iff w 0x03#8).symm,
      .trans ⟨?_, fun h => ⟨_, _, decode_of_cmd_rlutRd w h⟩⟩ (and_mask_eq_iff w 0x04#8).symm⟩
    · rintro ⟨g, v, h⟩
      exact cmd_of_decode_eq h
    · rintro ⟨c0, c1, c2, c3, c4, h⟩
      exact cmd_of_decode_eq h
    · rintro ⟨g, x, h⟩
      exact cmd_of_decode_eq h
    · rintro ⟨g, c, h⟩
      exact cmd_of_decode_eq h
  · intro w s h
    rw [runWord_eq_afterWord]
    cases hw : decode w with
    | command i => exact absurd hw (h i)
    | reserved why => rw [afterWord_of_reserved hw, reservedCommand_eq]
  · intro c o o'
    rw [decodes_iff_cmd, decodes_iff_cmd, cmd_append, cmd_append]

/-! ### The fields of a word -/

/-- RSV, OP and OPERAND make up the word (30 R60). -/
theorem fields_append (w : Word48) : w = (rsv w ++ op w ++ operand w : Word48) := by
  have h : (rsv w ++ op w ++ operand w : Word48).toNat = _ := toNat_append₃ (rsv w) (op w) (operand w)
  apply BitVec.eq_of_toNat_eq
  rw [h, rsv, op, operand, toNat_field, toNat_field, toNat_field]
  have := w.isLt
  omega

/-- FRAME of an ENC32 word (30 R64). -/
theorem encode_enc32_frame (g : Byte) (v : Frame) : (encode (.enc32 g v)).extractLsb' 0 32 = v := by
  rw [field_eq_iff, encode_enc32_toNat]
  have := v.isLt
  omega

/-- OPERAND of a DEC32 word is its group (30 R64, 20 R51). -/
theorem operand_encode_dec32 (c0 c1 c2 c3 c4 : Byte) :
    operand (encode (.dec32 c0 c1 c2 c3 c4)) = packGroup c0 c1 c2 c3 c4 := by
  have hp := packGroup_toNat c0 c1 c2 c3 c4
  have := (packGroup c0 c1 c2 c3 c4).isLt
  rw [operand, field_eq_iff, encode_dec32_toNat]
  omega

/-- Settles O4: `fields_append`, the decoder by CMD, and the words a host builds. -/
theorem operandFields : Obligations.OperandFields := by
  refine ⟨fun w => ⟨rfl, rfl, rfl, fields_append w⟩, decode_of_cmd_enc32, decode_of_cmd_dec32,
    decode_of_cmd_alphaRd, decode_of_cmd_rlutRd, ?_, ?_⟩
  · intro b0 b1 b2 b3
    exact encode_enc32_frame 0#8 (frameOfBytes b0 b1 b2 b3)
  · intro c0 c1 c2 c3 c4
    obtain ⟨h0, h1, h2, h3, h4⟩ := charAt_packGroup c0 c1 c2 c3 c4
    rw [dec32Word, h0, h1, h2, h3, h4]
    exact operand_encode_dec32 c0 c1 c2 c3 c4

/-- Settles O5: the decoder on each word. -/
theorem writtenWordsDecode : Obligations.WrittenWordsDecode :=
  ⟨decode_of_cmd_enc32 _ rfl, decode_of_cmd_enc32 _ rfl, decode_of_cmd_dec32 _ rfl, decode_of_cmd_alphaRd _ rfl,
    decode_of_cmd_rlutRd _ rfl, by decide, by decide⟩

end Sys2Proof.Proofs
end

section
/-! Ignored operand bits (30 R65) and what the assembler forms assemble to (30 R69). -/

namespace Sys2Proof.Proofs

open Sys2Proof.Machine Sys2Proof.Laws

/-! ### Ignored bits -/

/-- Two words whose commands act alike run alike. -/
theorem runWord_congr {w w' : Word48} {i j : Instr} {s : State} (hw : decode w = .command i)
    (hw' : decode w' = .command j) (h : exec i s = exec j s) : runWord w s = runWord w' s := by
  rw [exec_eq, exec_eq] at h
  rw [runWord_eq_afterWord, runWord_eq_afterWord, afterWord_of_command hw, afterWord_of_command hw', h]

/-- ENC32 does not read its ignored byte (30 R65). -/
theorem exec_enc32_ignored (g g' : Byte) (v : Frame) (s : State) :
    exec (.enc32 g v) s = exec (.enc32 g' v) s := rfl

/-- ALPHA_RD does not read its ignored bits (30 R65). -/
theorem exec_alphaRd_ignored (g g' : BitVec 32) (x : Byte) (s : State) :
    exec (.alphaRd g x) s = exec (.alphaRd g' x) s := rfl

/-- RLUT_RD does not read its ignored bits (30 R65). -/
theorem exec_rlutRd_ignored (g g' : BitVec 32) (c : Byte) (s : State) :
    exec (.rlutRd g c) s = exec (.rlutRd g' c) s := rfl

/-- A form whose word is that of a well-formed command assembles to words of well-formed commands. -/
theorem wf_of_assemble {st : AsmStmt} {w : Word48} {i j : Instr} (hst : st.word = encode j)
    (hj : j.wf = true) (h : st.assemble = some w) (hw : decode w = .command i) : i.wf = true := by
  obtain ⟨-, rfl⟩ : st.wf = true ∧ st.word = w := by simpa [AsmStmt.assemble] using h
  rw [hst, decodeOfEncode j] at hw
  rwa [← Decoded.command.inj hw]

/-- Settles O6: the commands by `runWord_congr`, the assembler by `wf_of_assemble`. -/
theorem ignoredBitsHaveNoEffect : Obligations.IgnoredBitsHaveNoEffect := by
  refine ⟨?_, ?_, ?_, ?_⟩
  · intro w w' s hw hw' hv
    refine runWord_congr (decode_of_cmd_enc32 w hw) (decode_of_cmd_enc32 w' hw') ?_
    rw [hv]
    exact exec_enc32_ignored _ _ _ s
  · intro w w' s hw hw' hx
    refine runWord_congr (decode_of_cmd_alphaRd w hw) (decode_of_cmd_alphaRd w' hw') ?_
    rw [hx]
    exact exec_alphaRd_ignored _ _ _ s
  · intro w w' s hw hw' hc
    refine runWord_congr (decode_of_cmd_rlutRd w hw) (decode_of_cmd_rlutRd w' hw') ?_
    rw [hc]
    exact exec_rlutRd_ignored _ _ _ s
  · rintro n w i (h | h | h | ⟨c, h⟩) hw
    · exact wf_of_assemble (j := .enc32 0 (BitVec.ofNat 32 n)) rfl rfl h hw
    · exact wf_of_assemble (j := .alphaRd 0 (BitVec.ofNat 8 n)) rfl rfl h hw
    · exact wf_of_assemble (j := .rlutRd 0 (BitVec.ofNat 8 n)) rfl rfl h hw
    · exact wf_of_assemble (j := .rlutRd 0 c) rfl rfl h hw

/-! ### The forms of the assembler -/

/-- A form assembles to its word in its range, and to nothing outside of it (30 R69). -/
theorem assemble_eq_ite {st : AsmStmt} {p : Prop} [Decidable p] (h : st.wf = true ↔ p) :
    st.assemble = if p then some st.word else none := by
  simp only [AsmStmt.assemble, h]

/-- The characters that may be written literally (30 R69). -/
theorem literal_iff (c : Byte) : literal c = true ↔ 0x20 ≤ c.toNat ∧ c.toNat ≤ 0x7E := by
  simp only [literal, Bool.and_eq_true, decide_eq_true_eq]

/-- A quoted group has five characters, each of them literal (30 R69). -/
theorem dec32Text_wf_iff (l : List Byte) : (AsmStmt.dec32Text l).wf = true ↔
    l.length = 5 ∧ ∀ c ∈ l, 0x20 ≤ c.toNat ∧ c.toNat ≤ 0x7E := by
  simp only [AsmStmt.wf, Bool.and_eq_true, beq_iff_eq, List.all_eq_true, literal_iff]

/-- Settles O7: the range of each form is its check (`assemble_eq_ite`); the three texts are evaluated. -/
theorem assemblerForms : Obligations.AssemblerForms := by
  refine ⟨fun _ => assemble_eq_ite decide_eq_true_iff, fun l => ⟨?_, ?_⟩,
    fun _ => assemble_eq_ite decide_eq_true_iff, fun _ => assemble_eq_ite decide_eq_true_iff,
    fun c => assemble_eq_ite (literal_iff c), fun _ => assemble_eq_ite decide_eq_true_iff,
    fun _ => assemble_eq_ite decide_eq_true_iff, by decide, by decide, by decide⟩
  · rintro c0 c1 c2 c3 c4 rfl hl
    rw [assemble_eq_ite (dec32Text_wf_iff _), if_pos ⟨rfl, hl⟩]
    rfl
  · intro h
    rw [assemble_eq_ite (dec32Text_wf_iff l), if_neg]
    rintro ⟨h5, hl⟩
    rcases h with h | ⟨c, hc, h⟩
    · exact h h5
    · have := hl c hc
      omega

end Sys2Proof.Proofs
end

section
/-! The frame encoder ENC32 (40 R80 to R83): what it writes, the form of its digits with a running divisor, its
first character, and that it loses nothing. -/

namespace Sys2Proof.Proofs

open Sys2Proof.Machine Sys2Proof.Laws

/-! ### What ENC32 writes -/

/-- Everything ENC32 does: the frame's group, and STATUS with VALID alone (40 R80). -/
theorem exec_enc32_eq (g : Byte) (v : Frame) (s : State) :
    exec (.enc32 g v) s = .next { s with result := encFrame s.alpha v, status := 0x01#8 } := by
  rw [exec_eq]
  simp only [State.complete, answerResult, answerConditions, statusWord_none]

/-- ENC32 on the alphabet writes the group that the frame encodes to (40 R80). -/
theorem exec_enc32_of_intact {s : State} (hs : RomsIntact s) (g : Byte) {v : Frame} {group : Word40}
    (h : encFrame alphaRom v = group) :
    exec (.enc32 g v) s = .next { s with result := group, status := 0x01#8 } := by
  obtain ⟨ha, -⟩ := hs
  rw [exec_enc32_eq, ha, h]

/-- A frame's first digit needs no `mod 85`, as 2^32 is below 83 * 85^4 (40 R82). -/
theorem encDigit_zero (v : Frame) : (encDigit v 0).val = v.toNat / 85 ^ 4 ∧ v.toNat / 85 ^ 4 ≤ 82 := by
  have hv := v.isLt
  have hle : v.toNat / 85 ^ 4 ≤ 82 := by omega
  exact ⟨Nat.mod_eq_of_lt (hle.trans_lt (by decide)), hle⟩

/-- Settles O15: `exec_enc32_eq` read field by field; the corner cases are groups of the alphabet. -/
theorem enc32WritesTheGroup : Obligations.Enc32WritesTheGroup := by
  refine ⟨fun g v s => ⟨decode_encode_enc32 g v, _, exec_enc32_eq g v s, charAt_encFrame s.alpha v, rfl,
    (encDigit_zero v).2, rfl⟩, fun g s hs => ⟨?_, ?_, ?_, ?_, ?_⟩⟩
  all_goals exact exec_enc32_of_intact hs g (by decide)

/-! ### The running divisor -/

/-- Taking away a multiple of a higher power of 85 leaves a digit as it is. -/
theorem digit_sub_mul_pow {r d n k : Nat} (hd : d * 85 ^ n ≤ r) (hk : k < n) :
    (r - d * 85 ^ n) / 85 ^ k % 85 = r / 85 ^ k % 85 := by
  obtain ⟨r', rfl⟩ := Nat.exists_eq_add_of_le' hd
  obtain ⟨m, rfl⟩ := Nat.exists_eq_add_of_lt hk
  have hm : d * 85 ^ (k + m + 1) = 85 ^ k * (85 * (d * 85 ^ m)) := by ring
  rw [Nat.add_sub_cancel, hm, Nat.add_mul_div_left _ _ (by positivity), Nat.add_mul_mod_self_left]

/-- The rounds from the divisor 85^n give the base-85 digits of the remainder, digit n first (40 R81). -/
theorem divisorDigits_pow (n r : Nat) :
    divisorDigits (n + 1) r (85 ^ n) = (List.range (n + 1)).reverse.map (fun k => r / 85 ^ k % 85) := by
  induction n generalizing r with
  | zero => simp [divisorDigits]
  | succ n ih =>
    have hdiv : 85 ^ (n + 1) / 85 = 85 ^ n := by rw [pow_succ, Nat.mul_div_cancel _ (by decide)]
    have hle : r / 85 ^ (n + 1) % 85 * 85 ^ (n + 1) ≤ r :=
      (Nat.mul_le_mul_right _ (Nat.mod_le _ _)).trans (Nat.div_mul_le_self _ _)
    rw [divisorDigits, hdiv, ih, List.range_succ (n := n + 1), List.reverse_append, List.reverse_singleton,
      List.singleton_append, List.map_cons]
    refine congrArg _ (List.map_congr_left fun k hk => digit_sub_mul_pow hle ?_)
    simpa using hk

/-- The five rounds of ENC32, from 85^4 (40 R81). -/
theorem divisorDigits_five (r : Nat) : divisorDigits 5 r 52200625 =
    [r / 85 ^ 4 % 85, r / 85 ^ 3 % 85, r / 85 ^ 2 % 85, r / 85 % 85, r % 85] := by
  have h := divisorDigits_pow 4 r
  simpa [List.range_succ] using h

/-- Settles O16: `divisorDigits_five`, whose entries are R80's digits at the five positions. -/
theorem enc32DivisorForm : Obligations.Enc32DivisorForm := by
  refine ⟨by decide, fun v => divisorDigits_five v.toNat, fun v k => ?_⟩
  rw [divisorDigits_five, encDigit_val]
  fin_cases k <;> simp

/-! ### The digits and characters of a frame -/

/-- Every digit d is digit k of some frame, namely of d * 85^(4-k), unless k is the first position (40 R82). -/
theorem exists_frame_of_digit {k : Fin 5} (hk : k ≠ 0) (d : Fin 85) : ∃ v : Frame, encDigit v k = d := by
  have hpow : 85 ^ (4 - k.val) ≤ 85 ^ 3 := Nat.pow_le_pow_right (by omega) (by omega)
  have hlt : d.val * 85 ^ (4 - k.val) < 2 ^ 32 :=
    calc d.val * 85 ^ (4 - k.val) ≤ 85 * 85 ^ 3 := Nat.mul_le_mul d.isLt.le hpow
      _ < 2 ^ 32 := by norm_num
  refine ⟨BitVec.ofNat 32 (d.val * 85 ^ (4 - k.val)), Fin.ext ?_⟩
  rw [encDigit_val, BitVec.toNat_ofNat, Nat.mod_eq_of_lt hlt, Nat.mul_div_cancel _ (by positivity),
    Nat.mod_eq_of_lt d.isLt]

/-- A digit above 82 is not a frame's first one, so its code is not the first character (40 R82). -/
theorem charAt_zero_encFrame_ne (v : Frame) {d : Fin 85} (hd : 82 < d.val) :
    charAt (encFrame alphaRom v) 0 ≠ alphaRom.get d := by
  rw [charAt_encFrame]
  intro h
  obtain ⟨hfirst, hle⟩ := encDigit_zero v
  rw [alphaRom_injective _ _ h] at hfirst
  omega

/-- Settles O17: `$` and `#` are the codes of digits 83 and 84. -/
theorem enc32FirstDigit : Obligations.Enc32FirstDigit := by
  refine ⟨by decide, fun v => ?_, fun v g s hs => ?_, fun k d hk => exists_frame_of_digit hk d⟩
  · obtain ⟨hfirst, hle⟩ := encDigit_zero v
    exact ⟨hfirst, hfirst.trans_le hle⟩
  · exact ⟨_, exec_enc32_of_intact hs g rfl, charAt_zero_encFrame_ne v (d := 83) (by decide),
      charAt_zero_encFrame_ne v (d := 84) (by decide)⟩

/-- The group of a frame determines the frame, as DECODE's value of the group is the frame (40 R83). -/
theorem encFrame_injective : Function.Injective (encFrame alphaRom) :=
  Function.LeftInverse.injective decFrame_encFrame

/-- Every character of a frame's group is an alphabet code (40 R83). -/
theorem isAlpha_charAt_encFrame (v : Frame) (k : Fin 5) :
    isAlpha rlutRom (charAt (encFrame alphaRom v) k) = true :=
  (isAlpha_iff _).mpr ⟨encDigit v k, (charAt_encFrame alphaRom v k).symm⟩

/-- Settles O18: RESULT is the frame's group on the alphabet (`exec_enc32_of_intact`). -/
theorem enc32IsInjective : Obligations.Enc32IsInjective := by
  refine fun s hs => ⟨fun v v' g g' t t' ht ht' h => ?_, fun v g =>
    ⟨_, exec_enc32_of_intact hs g rfl, isAlpha_charAt_encFrame v⟩⟩
  rw [exec_enc32_of_intact hs g rfl] at ht
  rw [exec_enc32_of_intact hs g' rfl] at ht'
  cases ht
  cases ht'
  exact encFrame_injective h

end Sys2Proof.Proofs
end

section
/-! The frame decoder DEC32 (41 R100 to R102): what it writes, the width of its accumulator, and its overflow. -/

namespace Sys2Proof.Proofs

open Sys2Proof.Machine Sys2Proof.Laws

/-! ### What DEC32 writes -/

/-- Everything DEC32 does, from the ROM's digits and valid bits (41 R100). -/
theorem exec_dec32_eq (c0 c1 c2 c3 c4 : Byte) (s : State) :
    exec (.dec32 c0 c1 c2 c3 c4) s =
      .next (s.complete (word40OfFrame (BitVec.ofNat 32 (groupValue s.rlut c0 c1 c2 c3 c4)))
        (groupConditions s.rlut c0 c1 c2 c3 c4)) :=
  exec_eq _ s

/-- DEC32 with the ROM contents writes the frame and the STATUS of its group (41 R100). -/
theorem exec_dec32_of_intact {s : State} (hs : RomsIntact s) {c0 c1 c2 c3 c4 : Byte} {r : Word40} {st : Byte}
    (hval : word40OfFrame (BitVec.ofNat 32 (groupValue rlutRom c0 c1 c2 c3 c4)) = r)
    (hst : statusWord (groupConditions rlutRom c0 c1 c2 c3 c4) = st) :
    exec (.dec32 c0 c1 c2 c3 c4) s = .next { s with result := r, status := st } := by
  obtain ⟨-, hr⟩ := hs
  rw [← hr] at hval hst
  rw [exec_dec32_eq, hval, State.complete, hst]

/-- OVF's condition as a comparison (41 R102). -/
theorem ovfOf_iff (val : Nat) : ovfOf val = true ↔ 2 ^ 32 ≤ val := decide_eq_true_iff

/-- INVCHR's condition by the membership test of the ROM, whatever it holds (41 R100, 20 R48). -/
theorem invchrOf_iff_isAlpha (rlut : Vector RlutEntry 128) (cs : List Byte) :
    invchrOf rlut cs = true ↔ ∃ c ∈ cs, isAlpha rlut c = false := by
  simp only [invchrOf, List.any_eq_true, Bool.not_eq_true']

/-- The four values of STATUS after DEC32 (41 R100). -/
theorem groupConditions_status (rlut : Vector RlutEntry 128) (c0 c1 c2 c3 c4 : Byte) :
    statusWord (groupConditions rlut c0 c1 c2 c3 c4) = 0x01#8 ∨
      statusWord (groupConditions rlut c0 c1 c2 c3 c4) = 0x05#8 ∨
      statusWord (groupConditions rlut c0 c1 c2 c3 c4) = 0x09#8 ∨
      statusWord (groupConditions rlut c0 c1 c2 c3 c4) = 0x0D#8 := by
  rw [groupConditions, statusWord_invchr_ovf]
  cases invchrOf rlut [c0, c1, c2, c3, c4] <;> cases ovfOf (groupValue rlut c0 c1 c2 c3 c4) <;> decide

/-- Settles O19: `exec_dec32_eq` read field by field; the corner cases are groups of the ROM contents. -/
theorem dec32WritesTheFrame : Obligations.Dec32WritesTheFrame := by
  refine ⟨fun c0 c1 c2 c3 c4 s => ⟨decode_encode_dec32 c0 c1 c2 c3 c4, groupValue s.rlut c0 c1 c2 c3 c4, _, rfl,
    exec_dec32_eq c0 c1 c2 c3 c4 s, word40OfFrame_ofNat_toNat _, statusWord_valid _, statusWord_illegal _, ?_, ?_,
    statusWord_range _, statusWord_reserved _, groupConditions_status s.rlut c0 c1 c2 c3 c4, rfl⟩,
    fun s hs => ⟨?_, ?_, ?_, ?_, ?_, ?_⟩⟩
  · rw [State.complete_status, statusWord_invchr]
    exact invchrOf_iff_isAlpha s.rlut _
  · rw [State.complete_status, statusWord_ovf]
    exact ovfOf_iff _
  all_goals exact exec_dec32_of_intact hs (by decide +kernel) (by decide +kernel)

/-! ### The width of the accumulator -/

/-- Wrapping at every step keeps the low 32 bits of the exact loop, from starts that agree in them (41 R101). -/
theorem foldl_wrapping_modEq {width : Nat} (hw : 32 ≤ width) (digits : List Byte) {a b : Nat}
    (h : a ≡ b [MOD 2 ^ 32]) :
    digits.foldl (fun v d => (v * 85 + d.toNat) % 2 ^ width) a ≡
      digits.foldl (fun v d => v * 85 + d.toNat) b [MOD 2 ^ 32] := by
  induction digits generalizing a b with
  | nil => exact h
  | cons d ds ih =>
    refine ih ?_
    have hwrap : (a * 85 + d.toNat) % 2 ^ width ≡ a * 85 + d.toNat [MOD 2 ^ 32] :=
      (Nat.mod_modEq _ _).of_dvd (pow_dvd_pow 2 hw)
    exact hwrap.trans ((h.mul_right 85).add_right _)

/-- The wrapping loop over five digits, modulo 2^32, is their exact value (41 R101). -/
theorem wrappingLoop_mod {width : Nat} (hw : 32 ≤ width) (d0 d1 d2 d3 d4 : Byte) :
    wrappingLoop width [d0, d1, d2, d3, d4] % 2 ^ 32 = digitsValue d0 d1 d2 d3 d4 % 2 ^ 32 := by
  have hloop : [d0, d1, d2, d3, d4].foldl (fun v d => v * 85 + d.toNat) 0 = digitsValue d0 d1 d2 d3 d4 := by
    simp only [List.foldl_cons, List.foldl_nil, digitsValue]
    ring
  rw [← hloop]
  exact foldl_wrapping_modEq hw _ (Nat.ModEq.refl 0)

/-- Settles O20: `wrappingLoop_mod`, at the ROM digits of the characters and at any digits. -/
theorem dec32AccumulatorWidth : Obligations.Dec32AccumulatorWidth := by
  refine ⟨fun width c0 c1 c2 c3 c4 s hw => ⟨_, exec_dec32_eq c0 c1 c2 c3 c4 s, ?_⟩,
    fun width d0 d1 d2 d3 d4 hw => wrappingLoop_mod hw d0 d1 d2 d3 d4⟩
  rw [State.complete_result, word40OfFrame_ofNat_toNat, wrappingLoop_mod hw, groupValue]

/-! ### Overflow -/

/-- DEC32's OVF and RESULT are those of its value, whatever the characters and the ROMs (41 R102). -/
theorem exec_dec32_ovf_result (c0 c1 c2 c3 c4 : Byte) (s : State) : ∃ t, exec (.dec32 c0 c1 c2 c3 c4) s = .next t ∧
    (t.status.getLsbD 3 = true ↔ 2 ^ 32 ≤ groupValue s.rlut c0 c1 c2 c3 c4) ∧
    t.result.toNat = groupValue s.rlut c0 c1 c2 c3 c4 % 2 ^ 32 := by
  refine ⟨_, exec_dec32_eq c0 c1 c2 c3 c4 s, ?_, word40OfFrame_ofNat_toNat _⟩
  rw [State.complete_status, statusWord_ovf]
  exact ovfOf_iff _

/-- The five base-85 digits of a number, the first of them most significant. -/
def digitsOf (n : Nat) (k : Fin 5) : Fin 85 := Fin.ofNat 85 (n / 85 ^ (4 - k.val))

/-- Below 85^5, exactly the digits of a number have it as their value (41 R102). -/
theorem digits_value_iff {n : Nat} (hn : n < 85 ^ 5) (e : Fin 5 → Fin 85) :
    (e 0).val * 85 ^ 4 + (e 1).val * 85 ^ 3 + (e 2).val * 85 ^ 2 + (e 3).val * 85 + (e 4).val = n ↔
      e = digitsOf n := by
  have h3 : (digitsOf n 3).val = n / 85 % 85 := by simp [digitsOf]
  have h4 : (digitsOf n 4).val = n % 85 := by simp [digitsOf]
  constructor
  · intro h
    obtain ⟨e0, e1, e2, e3, e4⟩ := digits_of_sum (e 0).isLt (e 1).isLt (e 2).isLt (e 3).isLt (e 4).isLt h
    funext k
    apply Fin.ext
    fin_cases k
    exacts [e0.symm, e1.symm, e2.symm, e3.symm.trans h3.symm, e4.symm.trans h4.symm]
  · rintro rfl
    rw [h3, h4]
    exact digits_sum hn

/-- One more group in front adds its own INVCHR to `bad` (45 R149). -/
theorem anyInvchr_cons (g : Word40) (gs : List Word40) :
    anyInvchr (g :: gs) = (invchrOf rlutRom (groupChars g) || anyInvchr gs) := rfl

/-- The groups of a text of alphabet characters have no INVCHR (45 R154). -/
theorem anyInvchr_groupsOf {text : List Byte} (h : ∀ c ∈ text, isAlpha rlutRom c = true) :
    anyInvchr (groupsOf text) = false := by
  induction text using groupsOf.induct with
  | case1 c0 c1 c2 c3 c4 rest ih =>
    simp only [List.forall_mem_cons] at h
    obtain ⟨h0, h1, h2, h3, h4, hrest⟩ := h
    have hgroup : invchrOf rlutRom [c0, c1, c2, c3, c4] = false := by simp [invchrOf, h0, h1, h2, h3, h4]
    rw [groupsOf, anyInvchr_cons, groupChars_packGroup, hgroup, ih hrest, Bool.false_or]
  | case2 l hl =>
    have hnil : groupsOf l = [] := by rw [groupsOf]; exact hl
    rw [hnil, anyInvchr_nil]

/-- Settles O21: `exec_dec32_ovf_result` for OVF, `digits_value_iff` for the groups, `anyInvchr_groupsOf` for DECODE. -/
theorem dec32Overflow : Obligations.Dec32Overflow := by
  refine ⟨?_, by decide, by decide, fun n _ hn => ⟨digitsOf n, digits_value_iff (by omega)⟩, ?_, ?_⟩
  · intro s d hs val
    obtain ⟨-, hr⟩ := hs
    obtain ⟨t, ht, hovf, hres⟩ := exec_dec32_ovf_result (alphaRom.get (d 0)) (alphaRom.get (d 1))
      (alphaRom.get (d 2)) (alphaRom.get (d 3)) (alphaRom.get (d 4)) s
    rw [hr, groupValue_alpha] at hovf hres
    exact ⟨by omega, t, ht, hovf, hres⟩
  · intro s c0 c1 c2 c3 c4
    obtain ⟨t, ht, hovf, -⟩ := exec_dec32_ovf_result c0 c1 c2 c3 c4 s
    exact ⟨t, ht, hovf⟩
  · intro strict text p groups hp halpha
    obtain ⟨rfl, -⟩ := decodePlan_go hp
    have hbad := anyInvchr_groupsOf fun c hc => (isAlpha_iff c).mpr (halpha c hc)
    simp [seqDecode, hp, hbad]

end Sys2Proof.Proofs
end

section
/-! DEC32 and ENC32 against each other (41 R104 to R106): the inverse law, the canonical groups, and the groups
that share a RESULT. -/

namespace Sys2Proof.Proofs

open Sys2Proof.Machine Sys2Proof.Laws

/-! ### Canonical groups -/

/-- A group that a frame encodes to has that frame as its value, and no condition (41 R104). -/
theorem conditions_of_encFrame {v : Frame} {c0 c1 c2 c3 c4 : Byte}
    (h : encFrame alphaRom v = packGroup c0 c1 c2 c3 c4) :
    groupValue rlutRom c0 c1 c2 c3 c4 = v.toNat ∧ groupConditions rlutRom c0 c1 c2 c3 c4 = {} := by
  have hchars := congrArg groupChars h
  rw [groupChars_encFrame, groupChars_packGroup] at hchars
  simp only [List.cons.injEq, and_true] at hchars
  obtain ⟨rfl, rfl, rfl, rfl, rfl⟩ := hchars
  have hfits : ovfOf v.toNat = false := decide_eq_false (Nat.not_le.mpr v.isLt)
  refine ⟨groupValue_encFrame v, ?_⟩
  rw [groupConditions, invchrOf_alpha, groupValue_encFrame, hfits]

/-- The groups that come back to themselves are those with neither INVCHR nor OVF (41 R105). -/
theorem canonical_iff (c0 c1 c2 c3 c4 : Byte) :
    encFrame alphaRom (BitVec.ofNat 32 (groupValue rlutRom c0 c1 c2 c3 c4)) = packGroup c0 c1 c2 c3 c4 ↔
      invchrOf rlutRom [c0, c1, c2, c3, c4] = false ∧ ovfOf (groupValue rlutRom c0 c1 c2 c3 c4) = false := by
  constructor
  · intro h
    obtain ⟨-, hc⟩ := conditions_of_encFrame h
    exact ⟨congrArg Conditions.invchr hc, congrArg Conditions.ovf hc⟩
  · rintro ⟨hi, ho⟩
    obtain ⟨d0, d1, d2, d3, d4, rfl, rfl, rfl, rfl, rfl⟩ := alpha_of_no_invchr hi
    have hlt := Nat.not_le.mp (of_decide_eq_false ho)
    apply encFrame_of_value
    rw [BitVec.toNat_ofNat, Nat.mod_eq_of_lt hlt, groupValue_alpha]

/-- DEC32 of a group that a frame encodes to gives the frame and STATUS 0x01 (41 R104). -/
theorem exec_dec32_of_encFrame {s : State} (hs : RomsIntact s) {v : Frame} {c0 c1 c2 c3 c4 : Byte}
    (h : encFrame alphaRom v = packGroup c0 c1 c2 c3 c4) :
    exec (.dec32 c0 c1 c2 c3 c4) s = .next { s with result := word40OfFrame v, status := 0x01#8 } := by
  obtain ⟨hval, hcond⟩ := conditions_of_encFrame h
  refine exec_dec32_of_intact hs ?_ ?_
  · rw [hval, BitVec.ofNat_toNat, BitVec.setWidth_eq]
  · rw [hcond, statusWord_none]

/-- Settles O22: the characters of ENC32's RESULT pack to the group of the frame (`exec_dec32_of_encFrame`). -/
theorem dec32InvertsEnc32 : Obligations.Dec32InvertsEnc32 := by
  intro s g v hs
  have ht : RomsIntact { s with result := encFrame alphaRom v, status := 0x01#8 } := hs
  exact ⟨_, exec_enc32_of_intact hs g rfl, exec_dec32_of_encFrame ht (packGroup_charAt _).symm⟩

/-- Settles O23: ENC32 gets the group's frame, and `canonical_iff` compares what it writes with the group. -/
theorem canonicalGroups : Obligations.CanonicalGroups := by
  intro s c0 c1 c2 c3 c4 g hs
  have ht : ∀ r st, RomsIntact { s with result := r, status := st } := fun _ _ => hs
  have hcan := canonical_iff c0 c1 c2 c3 c4
  refine ⟨_, _, exec_dec32_of_intact hs rfl rfl, exec_enc32_of_intact (ht _ _) g rfl, ?_⟩
  have hv := frameOfWord40_word40OfFrame (BitVec.ofNat 32 (groupValue rlutRom c0 c1 c2 c3 c4))
  rw [frameOfWord40] at hv
  dsimp only
  rw [hv, statusWord_invchr, statusWord_ovf]
  refine ⟨fun hi ho => hcan.mpr ⟨hi, ho⟩, fun h he => ?_⟩
  obtain ⟨hi, ho⟩ := hcan.mp he
  rcases h with h | h
  · exact Bool.false_ne_true (hi.symm.trans h)
  · exact Bool.false_ne_true (ho.symm.trans h)

/-! ### Groups with one RESULT -/

/-- Values that agree mod 2^32 give one RESULT (41 R106). -/
theorem exec_dec32_same_result {s : State} {a0 a1 a2 a3 a4 b0 b1 b2 b3 b4 : Byte}
    (h : groupValue s.rlut a0 a1 a2 a3 a4 % 2 ^ 32 = groupValue s.rlut b0 b1 b2 b3 b4 % 2 ^ 32) :
    ∃ t u, exec (.dec32 a0 a1 a2 a3 a4) s = .next t ∧ exec (.dec32 b0 b1 b2 b3 b4) s = .next u ∧
      t.result = u.result := by
  apply exec_same_result
  have hframe : BitVec.ofNat 32 (groupValue s.rlut a0 a1 a2 a3 a4) =
      BitVec.ofNat 32 (groupValue s.rlut b0 b1 b2 b3 b4) := by
    apply BitVec.eq_of_toNat_eq
    rw [BitVec.toNat_ofNat, BitVec.toNat_ofNat, h]
  simp only [answerResult, hframe]

/-- Two groups without a condition that share a RESULT are one group (41 R106). -/
theorem group_eq_of_same_result {a0 a1 a2 a3 a4 b0 b1 b2 b3 b4 : Byte}
    (hr : word40OfFrame (BitVec.ofNat 32 (groupValue rlutRom a0 a1 a2 a3 a4)) =
      word40OfFrame (BitVec.ofNat 32 (groupValue rlutRom b0 b1 b2 b3 b4)))
    (ha : invchrOf rlutRom [a0, a1, a2, a3, a4] = false ∧ ovfOf (groupValue rlutRom a0 a1 a2 a3 a4) = false)
    (hb : invchrOf rlutRom [b0, b1, b2, b3, b4] = false ∧ ovfOf (groupValue rlutRom b0 b1 b2 b3 b4) = false) :
    [a0, a1, a2, a3, a4] = [b0, b1, b2, b3, b4] := by
  have hframe := congrArg frameOfWord40 hr
  rw [frameOfWord40_word40OfFrame, frameOfWord40_word40OfFrame] at hframe
  have hgroup := (canonical_iff ..).mpr ha
  rw [hframe, (canonical_iff ..).mpr hb] at hgroup
  rw [← groupChars_packGroup, ← hgroup, groupChars_packGroup]

/-- STATUS 0x01 reports neither INVCHR nor OVF (10 R25). -/
theorem no_conditions_of_status {c : Conditions} (h : statusWord c = 0x01#8) :
    c.invchr = false ∧ c.ovf = false := by
  rw [← statusWord_invchr, ← statusWord_ovf, h]
  decide

/-- Settles O24: `exec_dec32_same_result` for the three ways, `group_eq_of_same_result` for STATUS. -/
theorem dec32IsNotInjective : Obligations.Dec32IsNotInjective := by
  refine ⟨fun _ _ _ _ _ _ _ _ _ _ _ => exec_dec32_same_result, ?_, ?_, ?_, ?_⟩
  · intro s c0 c1 c2 c3 c4 m0 m1 m2 m3 m4 flip
    have hflip : ∀ m c, charDigit s.rlut (flip m c) = charDigit s.rlut c := by
      intro m c
      cases m with
      | false => rfl
      | true => exact congrArg (fun i => (rlutAt s.rlut i).digit) (rlutIndex_alias c)
    apply exec_dec32_same_result
    simp only [groupValue, hflip]
  · intro s a0 a1 a2 a3 a4 b0 b1 b2 b3 b4 h0 h1 h2 h3 h4
    apply exec_dec32_same_result
    simp only [groupValue, charDigit, rlutAt, h0, h1, h2, h3, h4]
  · intro s hs
    exact ⟨_, _, exec_dec32_of_intact hs (by decide +kernel) rfl, exec_dec32_of_intact hs (by decide +kernel) rfl,
      rfl, rfl⟩
  · intro s t u a0 a1 a2 a3 a4 b0 b1 b2 b3 b4 hs ht hu hr hst hne
    rw [exec_dec32_of_intact hs rfl rfl] at ht hu
    cases ht
    cases hu
    dsimp only at hr hst ⊢
    by_contra hclear
    rw [statusWord_invchr, statusWord_ovf, not_or, Bool.not_eq_true, Bool.not_eq_true] at hclear
    exact hne (group_eq_of_same_result hr (no_conditions_of_status hst) hclear)

end Sys2Proof.Proofs
end

section
/-! The ROM reads ALPHA_RD and RLUT_RD (42 R120 to R124): what each writes, the character ENC32 writes for a digit,
and the two reads one after the other. -/

namespace Sys2Proof.Proofs

open Sys2Proof.Machine Sys2Proof.Laws

/-! ### ALPHA_RD -/

/-- Everything ALPHA_RD does with a digit as its index: the digit's alphabet code, VALID alone (42 R120). -/
theorem exec_alphaRd_of_digit (g : BitVec 32) {x : Byte} {d : Fin 85} (h : x.toNat = d.val) (s : State) :
    exec (.alphaRd g x) s = .next { s with result := (s.alpha.get d).setWidth 40, status := 0x01#8 } := by
  have hlt : x.toNat < 85 := h.trans_lt d.isLt
  obtain rfl : d = ⟨x.toNat, hlt⟩ := Fin.ext h.symm
  have hc : answerConditions (.alphaRd g x) s.rlut = {} := by simp [answerConditions, hlt]
  rw [exec_eq, answerResult_alphaRd_of_lt g hlt, hc, State.complete, statusWord_none, word40OfCode, alphaAt]

/-- Everything ALPHA_RD does with an index of 85 or more: RESULT 0, and RANGE (42 R120). -/
theorem exec_alphaRd_of_ge (g : BitVec 32) {x : Byte} (h : 85 ≤ x.toNat) (s : State) :
    exec (.alphaRd g x) s = .next { s with result := 0#40, status := 0x11#8 } := by
  have hge : ¬ x.toNat < 85 := Nat.not_lt.mpr h
  have hc : answerConditions (.alphaRd g x) s.rlut = { range := true } := by simp [answerConditions, hge]
  rw [exec_eq, answerResult_alphaRd_of_not_lt g hge, hc, State.complete, statusWord_range_only]

/-- ALPHA_RD of a digit, on the alphabet (42 R120). -/
theorem exec_alphaRd_of_intact {s : State} (hs : RomsIntact s) (g : BitVec 32) {x : Byte} {r : Word40} (d : Fin 85)
    (hd : x.toNat = d.val) (hr : (alphaRom.get d).setWidth 40 = r) :
    exec (.alphaRd g x) s = .next { s with result := r, status := 0x01#8 } := by
  obtain ⟨ha, -⟩ := hs
  rw [exec_alphaRd_of_digit g hd, ha, hr]

/-- Settles O25: the two cases are `exec_alphaRd_of_digit` and `exec_alphaRd_of_ge`. -/
theorem alphaRdReadsTheRom : Obligations.AlphaRdReadsTheRom := by
  refine ⟨fun g x s => ⟨decode_encode_alphaRd g x, ?_⟩, fun g s hs => ⟨?_, ?_, ?_, ?_, ?_⟩⟩
  · by_cases h : x.toNat < 85
    · exact ⟨_, exec_alphaRd_of_digit g (d := ⟨x.toNat, h⟩) rfl s, fun _ => ⟨rfl, rfl⟩,
        fun hge => absurd h (Nat.not_lt.mpr hge), rfl⟩
    · exact ⟨_, exec_alphaRd_of_ge g (Nat.not_lt.mp h) s, fun hle => absurd (Nat.lt_succ_of_le hle) h,
        fun _ => ⟨rfl, rfl⟩, rfl⟩
  · exact exec_alphaRd_of_intact hs g 0 rfl (by decide)
  · exact exec_alphaRd_of_intact hs g 43 rfl (by decide)
  · exact exec_alphaRd_of_intact hs g 84 rfl (by decide)
  · exact exec_alphaRd_of_ge g (by decide) s
  · exact exec_alphaRd_of_ge g (by decide) s

/-- A digit is the same number in 8 bits (42 R121). -/
theorem ofNat_digit_toNat (d : Fin 85) : (BitVec.ofNat 8 d.val).toNat = d.val := by
  rw [BitVec.toNat_ofNat]
  omega

/-- Settles O26: ALPHA_RD of digit k and character k of ENC32's group read one alphabet entry. -/
theorem alphaRdIsTheEncoderCode : Obligations.AlphaRdIsTheEncoderCode := by
  intro s v g g' k
  refine ⟨_, _, exec_enc32_eq g v s, exec_alphaRd_of_digit g' (ofNat_digit_toNat (encDigit v k)) s, ?_, rfl⟩
  exact congrArg (BitVec.setWidth 40) (charAt_encFrame s.alpha v k).symm

/-! ### RLUT_RD -/

/-- Everything RLUT_RD does: the entry's valid bit and digit, and INVCHR by the membership test (42 R122). -/
theorem exec_rlutRd_eq (g : BitVec 32) (c : Byte) (s : State) :
    exec (.rlutRd g c) s = .next { s with
      result := word40OfEntry (rlutAt s.rlut (rlutIndex c))
      status := if isAlpha s.rlut c then 0x01#8 else 0x05#8 } := by
  have hst : statusWord (answerConditions (.rlutRd g c) s.rlut) =
      if isAlpha s.rlut c then 0x01#8 else 0x05#8 := by
    have hc : answerConditions (.rlutRd g c) s.rlut = { invchr := !isAlpha s.rlut c, ovf := false } := by
      simp [answerConditions, invchrOf]
    rw [hc, statusWord_invchr_ovf]
    cases isAlpha s.rlut c <;> rfl
  rw [exec_eq, State.complete, hst, answerResult]

/-- An entry in a 40-bit word, as a number (42 R122). -/
theorem word40OfEntry_toNat (e : RlutEntry) : (word40OfEntry e).toNat = e.valid.toNat * 2 ^ 8 + e.digit.toNat := by
  have hv := e.valid.toNat_lt
  have hd := e.digit.isLt
  rw [word40OfEntry, BitVec.toNat_setWidth, toNat_append, BitVec.toNat_ofBool]
  omega

/-- RESULT[8] of RLUT_RD is the valid bit (42 R122). -/
theorem word40OfEntry_valid (e : RlutEntry) : (word40OfEntry e).getLsbD 8 = e.valid := by
  have hd := e.digit.isLt
  have hdiv : (word40OfEntry e).toNat / 2 ^ 8 = e.valid.toNat := by
    rw [word40OfEntry_toNat]
    omega
  rw [BitVec.getLsbD, Nat.testBit_eq_decide_div_mod_eq, hdiv]
  cases e.valid <;> rfl

/-- RESULT[7:0] of RLUT_RD is the digit (42 R122). -/
theorem word40OfEntry_digit (e : RlutEntry) : (word40OfEntry e).extractLsb' 0 8 = e.digit := by
  have hd := e.digit.isLt
  rw [field_eq_iff, word40OfEntry_toNat]
  omega

/-- The word of a valid entry is 0x100 plus its digit (42 R123). -/
theorem word40OfEntry_of_digit (d : Fin 85) :
    word40OfEntry ⟨true, BitVec.ofNat 8 d.val⟩ = BitVec.ofNat 40 (0x100 + d.val) := by
  apply BitVec.eq_of_toNat_eq
  rw [word40OfEntry_toNat, ofNat_digit_toNat, BitVec.toNat_ofNat, Bool.toNat_true]
  omega

/-- The word of an invalid entry is its digit alone (42 R122). -/
theorem word40OfEntry_of_invalid (x : Byte) : word40OfEntry ⟨false, x⟩ = x.setWidth 40 := by
  apply BitVec.eq_of_toNat_eq
  rw [word40OfEntry_toNat, BitVec.toNat_setWidth, Bool.toNat_false, Nat.zero_mul, Nat.zero_add]
  exact (Nat.mod_eq_of_lt (x.isLt.trans (by decide))).symm

/-- RLUT_RD of an alphabet code gives the code's digit, valid, and VALID alone (42 R122, R123). -/
theorem exec_rlutRd_of_alpha {s : State} (hs : RomsIntact s) (g : BitVec 32) (d : Fin 85) {c : Byte}
    (hc : alphaRom.get d = c) :
    exec (.rlutRd g c) s = .next { s with result := BitVec.ofNat 40 (0x100 + d.val), status := 0x01#8 } := by
  obtain ⟨-, hr⟩ := hs
  have ha : isAlpha rlutRom c = true := (isAlpha_iff c).mpr ⟨d, hc⟩
  rw [exec_rlutRd_eq, hr, if_pos ha, ← hc, rlutAt, rlutRom_of_alpha, word40OfEntry_of_digit]

/-- RLUT_RD of a character whose entry is invalid gives the entry's SENTINEL, and INVCHR (42 R122). -/
theorem exec_rlutRd_of_invalid {s : State} (hs : RomsIntact s) (g : BitVec 32) {c : Byte} {i : BitVec 7}
    (hi : rlutIndex c = i) (hv : (rlutRom.get i.toFin).valid = false) :
    exec (.rlutRd g c) s = .next { s with result := (Config.sentinel i).setWidth 40, status := 0x05#8 } := by
  obtain ⟨-, hr⟩ := hs
  have ha : ¬ isAlpha rlutRom c = true := by simp [isAlpha, rlutAt, hi, hv]
  rw [exec_rlutRd_eq, hr, if_neg ha, rlutAt, hi, rlutRom_invalid i hv, word40OfEntry_of_invalid]

/-- RLUT_RD of an alphabet code with bit 7 set instead reads the code's entry, but reports INVCHR (42 R122, 20 R47). -/
theorem exec_rlutRd_of_bit7 {s : State} (hs : RomsIntact s) (g : BitVec 32) (d : Fin 85) {c : Byte}
    (hc : alphaRom.get d ^^^ 0x80#8 = c) (h7 : c.getLsbD 7 = true) :
    exec (.rlutRd g c) s = .next { s with result := BitVec.ofNat 40 (0x100 + d.val), status := 0x05#8 } := by
  obtain ⟨-, hr⟩ := hs
  have ha : ¬ isAlpha rlutRom c = true := by simp [isAlpha, h7]
  rw [exec_rlutRd_eq, hr, if_neg ha, ← hc, rlutIndex_alias, rlutAt, rlutRom_of_alpha, word40OfEntry_of_digit]

/-- Settles O27: `exec_rlutRd_eq` read field by field; the corner cases by the kind of character. -/
theorem rlutRdReadsTheRom : Obligations.RlutRdReadsTheRom := by
  refine ⟨fun g c s => ⟨decode_encode_rlutRd g c, _, exec_rlutRd_eq g c s, word40OfEntry_valid _,
    word40OfEntry_digit _, setWidth_field_above _ 31, rfl, word40OfEntry_digit _, rfl⟩,
    fun g s hs => ⟨?_, ?_, ?_, ?_, ?_, ?_, ?_⟩⟩
  · exact exec_rlutRd_of_alpha hs g 0 (by decide)
  · exact exec_rlutRd_of_alpha hs g 84 (by decide)
  · exact exec_rlutRd_of_alpha hs g 43 (by decide)
  · exact exec_rlutRd_of_invalid hs g (by decide) (by decide +kernel)
  · exact exec_rlutRd_of_invalid hs g (by decide) (by decide +kernel)
  · exact exec_rlutRd_of_invalid hs g (by decide) (by decide +kernel)
  · exact exec_rlutRd_of_bit7 hs g 0 (by decide) (by decide)

/-! ### One read after another -/

/-- The low byte of a zero-extended code is the code (30 R66). -/
theorem setWidth_field_low (c : Byte) : (c.setWidth 40).extractLsb' 0 8 = c := by
  rw [BitVec.extractLsb'_setWidth_of_le (by decide), BitVec.extractLsb'_eq_self]

/-- Settles O28: ALPHA_RD leaves the digit's code in RESULT[7:0], and `exec_rlutRd_of_alpha` reads it back. -/
theorem romRoundTrip : Obligations.RomRoundTrip := by
  intro s x g g' hs hx
  have ht : ∀ r st, RomsIntact { s with result := r, status := st } := fun _ _ => hs
  exact ⟨_, exec_alphaRd_of_intact hs g ⟨x.toNat, Nat.lt_succ_of_le hx⟩ rfl rfl,
    exec_rlutRd_of_alpha (ht _ _) g' _ (setWidth_field_low _).symm⟩

/-- A command run again on the state it left gives that state, as its answer comes from the ROMs (20 R56, R53). -/
theorem exec_repeat {i : Instr} {s t : State} (h : exec i s = .next t) : exec i t = .next t := by
  rw [exec_eq] at h
  cases h
  rw [exec_eq, State.complete_alpha, State.complete_rlut]
  rfl

/-- Settles O29: what it says of the two reads holds of every command, by `exec_eq` and `exec_repeat`. -/
theorem romReadsRepeat : Obligations.RomReadsRepeat := by
  intro i _ s s' ha hr
  refine ⟨_, _, exec_eq i s, exec_eq i s', ?_, ?_, State.complete_alpha .., State.complete_rlut ..,
    exec_repeat (exec_eq i s)⟩
  · rw [State.complete_result, State.complete_result, ha, hr]
  · rw [State.complete_status, State.complete_status, hr]

end Sys2Proof.Proofs
end

section
/-! One host action, one step (45 R140): reads, the start of a call, and the advance of a running call. -/

namespace Sys2Proof.Proofs

open Sys2Proof.Machine Sys2Proof.Laws

/-! ### Single steps -/

/-- A step takes the oldest pending action (45 R140). -/
theorem step_of_port {s : State} {a : HostAction} {rest : List HostAction} (hp : s.port = a :: rest) :
    step s = perform a { s with port := rest } := by
  simp only [step, nextAction, hp]

/-- With no pending action a step is idle (60 R185). -/
theorem step_of_no_action {s : State} (hp : s.port = []) : step s = .next s := by
  simp only [step, nextAction, hp]

/-- A word takes no notice of the pending actions. -/
theorem afterWord_set_port (w : Word48) (s : State) (rest : List HostAction) :
    afterWord w { s with port := rest } = { afterWord w s with port := rest } := by
  cases hw : decode w with
  | command i => rw [afterWord_of_command hw, afterWord_of_command hw]; rfl
  | reserved why => rw [afterWord_of_reserved hw, afterWord_of_reserved hw]; rfl

/-- A word writes RESULT and STATUS alone (20 R53). -/
theorem afterWord_eq_registers (w : Word48) (s : State) :
    afterWord w s = { s with result := (afterWord w s).result, status := (afterWord w s).status } := by
  cases hw : decode w with
  | command i => rw [afterWord_of_command hw]; rfl
  | reserved why => rw [afterWord_of_reserved hw]; rfl

/-- Settles O37: the issuer's response is the one delivery of `step_issue`. -/
theorem responseGoesToIssuer : Obligations.ResponseGoesToIssuer := by
  intro s h w rest hp
  exact ⟨_, step_issue hp, by simp, by simp, by simp⟩

/-- Settles O38: `step_of_port` at a read, `step_of_no_action` without an action. -/
theorem hostReads : Obligations.HostReads :=
  ⟨fun _ _ _ hp => step_of_port hp, fun _ _ _ hp => step_of_port hp, fun _ hp => step_of_no_action hp⟩

/-! ### The start of a call -/

/-- A call whose checks fail has their error as its value, and returns it as it starts (45 R157). -/
theorem value_start_of_plan_fail {c : Call} {e : SeqError} (strict : Bool) (h : c.plan = .fail e) :
    c.value strict = .seqError e ∧ c.start strict = .returned (.seqError e) :=
  ⟨value_of_plan_fail strict h, by simp only [Call.start, h]⟩

/-- A call whose checks pass starts with all its words to issue (45 R142, R149). -/
theorem start_of_plan_go {c : Call} {pad : Nat} {words : List Word48} (strict : Bool)
    (h : c.plan = .go pad words) : c.start strict = c.phase strict pad words [] false := by
  simp only [Call.start, h]

/-- Settles O52: the step only adds the record that `value_start_of_plan_fail` gives. -/
theorem errorsIssueNoCommand : Obligations.ErrorsIssueNoCommand := by
  intro s h c e rest hp he
  obtain ⟨-, hstart⟩ := value_start_of_plan_fail Config.strictDecode he
  rw [step_of_port hp, perform, State.startCall, hstart]

/-! ### The advance of a running call -/

/-- Settles O56: `step_advance`, with the word run in the state that still holds the advance. -/
theorem advanceIssuesTheNextCommand : Obligations.AdvanceIssuesTheNextCommand := by
  intro s k h c pad w todo out bad rest hp hk
  refine ⟨afterWord w s, _, runWord_eq_afterWord w s, step_advance hp hk, ?_⟩
  rw [afterWord_set_port, afterWord_eq_registers]
  rfl

/-- The words a call has still to issue are legal: ENC32 or DEC32 (45 R141). -/
theorem decode_of_mem_todo {c : Call} {pad : Nat} {todo : List Word48} {out : List Byte} {bad : Bool}
    (h : c.Progress pad todo out bad) {w : Word48} (hw : w ∈ todo) : ∃ i, decode w = .command i := by
  cases c with
  | encode data autoPad =>
    obtain ⟨done, rest, -, rfl, -, -⟩ := h
    obtain ⟨v, -, rfl⟩ := List.mem_map.mp hw
    exact ⟨_, decode_encode_enc32 0#8 v⟩
  | decode text =>
    obtain ⟨done, rest, -, rfl, -, -⟩ := h
    obtain ⟨g, -, rfl⟩ := List.mem_map.mp hw
    exact ⟨_, decode_encode_dec32 ..⟩

/-- A call's record after its next word, by the registers the word leaves. -/
theorem step_advance_record {s t : State} {k : Nat} {rest : List HostAction} {h : HostId} {c : Call} {pad : Nat}
    {w : Word48} {todo : List Word48} {out : List Byte} {bad : Bool} (hp : s.port = .advance k :: rest)
    (hk : s.procs[k]? = some ⟨h, c, .running pad (w :: todo) out bad⟩) (ht : step s = .next t) :
    t.procs[k]? = some ⟨h, c, c.phase Config.strictDecode pad todo (out ++ c.output (afterWord w s).result)
      (bad || c.flags (afterWord w s).status)⟩ := by
  obtain ⟨hlt, -⟩ := List.getElem?_eq_some_iff.mp hk
  rw [step_advance hp hk] at ht
  cases ht
  simp [afterWord_set_port, hlt]

/-- An advance of a record that is not running leaves every record as it is. -/
theorem step_advance_idle {s t : State} {k : Nat} {rest : List HostAction} (hp : s.port = .advance k :: rest)
    (hk : ∀ h c pad w todo out bad, s.procs[k]? ≠ some ⟨h, c, .running pad (w :: todo) out bad⟩)
    (ht : step s = .next t) : t.procs = s.procs := by
  rw [step_of_port hp, perform] at ht
  rcases advanceCall_cases k { s with port := rest } with ⟨e, -⟩ | ⟨h, c, pad, w, todo, out, bad, hrun, -⟩
  · rw [e] at ht
    cases ht
    rfl
  · exact absurd hrun (hk h c pad w todo out bad)

/-- A step for any action but an advance of record `k` leaves that record as it is (45 R141). -/
theorem step_other_record {s t : State} {k : Nat} {a : HostAction} {rest : List HostAction}
    (hp : s.port = a :: rest) (ha : a ≠ .advance k) (ht : step s = .next t) (hk : k < s.procs.length) :
    t.procs[k]? = s.procs[k]? := by
  rcases step_cases ht with ⟨-, rfl⟩ | ⟨b, rest', s₀, hp', rfl, hb⟩
  · rfl
  · obtain ⟨rfl, rfl⟩ := List.cons.inj (hp.symm.trans hp')
    rcases hb with ⟨g, w, -, rfl⟩ | ⟨g, -, rfl⟩ | ⟨g, -, rfl⟩ | ⟨-, rfl⟩ | ⟨g, c, -, rfl⟩ | ⟨j, rfl, hj⟩
    · simp
    · rfl
    · rfl
    · rfl
    · exact List.getElem?_append_left hk
    · rcases hj with ⟨rfl, -⟩ | ⟨g, c, pad, w, todo, out, bad, -, rfl⟩
      · rfl
      · have hjk : j ≠ k := fun e => ha (congrArg HostAction.advance e)
        simp [List.getElem?_set_ne hjk]

/-- Settles O53: another action by `step_other_record`; the call's own by its word, which is legal, so that its
answer comes from the ROMs (`afterWord_of_same_roms`). -/
theorem sequencerIsIsolated : Obligations.SequencerIsIsolated := by
  refine ⟨fun _ _ _ _ _ hp ha ht hk => step_other_record hp ha ht hk, ?_⟩
  intro s s' t t' k rest rest' hp hp' hs hs' hk ht ht'
  by_cases hrun : ∃ h c pad w todo out bad, s.procs[k]? = some ⟨h, c, .running pad (w :: todo) out bad⟩
  · obtain ⟨h, c, pad, w, todo, out, bad, hrun⟩ := hrun
    obtain ⟨-, hc⟩ : Proc.Ok ⟨h, c, .running pad (w :: todo) out bad⟩ := hs.procs _ (List.mem_of_getElem? hrun)
    obtain ⟨ha, hr⟩ := hs.roms
    obtain ⟨ha', hr'⟩ := hs'.roms
    obtain ⟨hres, hst⟩ := afterWord_of_same_roms (ha.trans ha'.symm) (hr.trans hr'.symm)
      (decode_of_mem_todo hc List.mem_cons_self)
    rw [step_advance_record hp hrun ht, step_advance_record hp' (hk ▸ hrun) ht', hres, hst]
  · push Not at hrun
    rw [step_advance_idle hp hrun ht, step_advance_idle hp' (hk ▸ hrun) ht', hk]

/-- Settles O54: the run keeps the invariant, which says it of every record. -/
theorem everyCallReturnsItsValue : Obligations.EveryCallReturnsItsValue := by
  intro n s t k p r hs hrun hk hr
  have ht : t.Inv := run_keeps (fun _ _ hu h => invKept.keptByStep hu h) n s t hs hrun
  have hok := ht.procs p (List.mem_of_getElem? hk)
  rwa [Proc.Ok, hr] at hok

end Sys2Proof.Proofs
end

section
/-! A whole call (45 R142, R149, R196): one step to start it and one for each of its commands. -/

namespace Sys2Proof.Proofs

open Sys2Proof.Machine Sys2Proof.Laws

/-! ### Answers -/

/-- The RESULT and the STATUS a word leaves in a state: its response (45 R140). -/
def answerOf (s : State) (w : Word48) : Word40 × Byte := ((afterWord w s).result, (afterWord w s).status)

/-- The state in which host `h` has had these answers, the last of them in the registers, and in which these
actions and records stand (45 R140). -/
def afterAnswers (s : State) (h : HostId) (answers : List (Word40 × Byte)) (port : List HostAction)
    (procs : List Proc) : State :=
  { s with
    port := port
    procs := procs
    delivered := (answers.map (fun a => Delivery.response h a.1 a.2)).reverse ++ s.delivered
    result := (answers.getLast?.getD (s.result, s.status)).1
    status := (answers.getLast?.getD (s.result, s.status)).2 }

/-- Answers taken one list after the other are all of them taken at once. -/
theorem afterAnswers_append (s : State) (h : HostId) (as bs : List (Word40 × Byte)) (port port' : List HostAction)
    (procs procs' : List Proc) :
    afterAnswers (afterAnswers s h as port' procs') h bs port procs = afterAnswers s h (as ++ bs) port procs := by
  cases hb : bs.getLast? <;> simp [afterAnswers, List.getLast?_append, hb]

/-- Answers leave the ROMs alone (10 R28). -/
theorem romsIntact_afterAnswers {s : State} (h : HostId) (as : List (Word40 × Byte)) (port : List HostAction)
    (procs : List Proc) (hs : RomsIntact s) : RomsIntact (afterAnswers s h as port procs) := hs

/-- Legal words have the same answers later on, as answers leave the ROMs alone (20 R56). -/
theorem map_answerOf_afterAnswers {s : State} {h : HostId} {as : List (Word40 × Byte)} {port : List HostAction}
    {procs : List Proc} {ws : List Word48} (hw : ∀ w ∈ ws, ∃ i, decode w = .command i) :
    ws.map (answerOf (afterAnswers s h as port procs)) = ws.map (answerOf s) := by
  refine List.map_congr_left fun w hmem => ?_
  obtain ⟨hres, hst⟩ := afterWord_of_same_roms (s := afterAnswers s h as port procs) (s' := s) rfl rfl (hw w hmem)
  exact Prod.ext hres hst

/-! ### The steps of a call -/

/-- The step that starts a call adds its record and takes no answer (45 R142, R149). -/
theorem step_call {s : State} {h : HostId} {c : Call} {rest : List HostAction} (hp : s.port = .call h c :: rest) :
    step s = .next (afterAnswers s h [] rest (s.procs ++ [⟨h, c, c.start Config.strictDecode⟩])) :=
  step_of_port hp

/-- The advance of the latest call, running, takes one answer (45 R140). -/
theorem step_advance_last {s : State} {before : List Proc} {h : HostId} {c : Call} {pad : Nat} {w : Word48}
    {todo : List Word48} {out : List Byte} {bad : Bool} {rest : List HostAction}
    (hp : s.port = .advance before.length :: rest)
    (hprocs : s.procs = before ++ [⟨h, c, .running pad (w :: todo) out bad⟩]) :
    step s = .next (afterAnswers s h [answerOf s w] rest (before ++ [⟨h, c, c.phase Config.strictDecode pad todo
      (out ++ c.output (afterWord w s).result) (bad || c.flags (afterWord w s).status)⟩])) := by
  have hk : s.procs[before.length]? = some ⟨h, c, .running pad (w :: todo) out bad⟩ := by
    rw [hprocs, List.getElem?_concat_length]
  obtain ⟨u, t, hu, hstep, ht⟩ := advanceIssuesTheNextCommand s before.length h c pad w todo out bad rest hp hk
  obtain rfl := eq_afterWord hu
  rw [hprocs, List.set_append_right _ _ le_rfl, Nat.sub_self, List.set_cons_zero] at ht
  rw [hstep, ht]
  rfl

/-- One advance for each word left takes a call to its end, by induction on the words (45 R142, R149). -/
theorem run_advances (h : HostId) (c : Call) (pad : Nat) (before : List Proc) (rest : List HostAction)
    (ws : List Word48) : ∀ (s : State) (out : List Byte) (bad : Bool), RomsIntact s → c.Progress pad ws out bad →
    s.procs = before ++ [⟨h, c, c.phase Config.strictDecode pad ws out bad⟩] →
    s.port = List.replicate ws.length (.advance before.length) ++ rest →
    Sys2Proof.core.run ws.length s = .next (afterAnswers s h (ws.map (answerOf s)) rest
      (before ++ [⟨h, c, .returned (c.value Config.strictDecode)⟩])) := by
  induction ws with
  | nil =>
    intro s out bad _ hc hprocs hport
    rw [Call.phase, finish_of_progress _ hc] at hprocs
    rw [← hprocs, ← (show s.port = rest from hport)]
    rfl
  | cons w ws ih =>
    intro s out bad hs hc hprocs hport
    rw [List.length_cons, List.replicate_succ, List.cons_append] at hport
    have hlegal : ∀ v ∈ ws, ∃ i, decode v = .command i :=
      fun v hv => decode_of_mem_todo hc (List.mem_cons_of_mem w hv)
    have hrun := ih _ _ _ (romsIntact_afterAnswers h [answerOf s w] _ _ hs) (progress_afterWord hs hc) rfl rfl
    rw [map_answerOf_afterAnswers hlegal, afterAnswers_append] at hrun
    rw [List.length_cons, run_succ (step_advance_last hport hprocs), hrun]
    rfl

/-- Settles O55: `step_call` starts the call, and `run_advances` takes it to its end. -/
theorem callRunsToCompletion : Obligations.CallRunsToCompletion := by
  intro s h c p ws rest hs hplan hport
  have hc := progress_of_plan hplan
  have hstart := step_call hport
  rw [start_of_plan_go _ hplan] at hstart
  have hrun := run_advances h c p s.procs rest ws _ _ _ (romsIntact_afterAnswers h [] _ _ hs) hc rfl rfl
  rw [map_answerOf_afterAnswers fun w hw => decode_of_mem_todo hc hw, afterAnswers_append] at hrun
  rw [← run_succ hstart, Nat.add_comm, List.nil_append] at hrun
  refine ⟨_, ws.map (answerOf s), hrun, rfl, rfl, List.length_map _, rfl,
    fun n w hw => ⟨_, runWord_eq_afterWord w s, ?_⟩, rfl, rfl, rfl⟩
  rw [List.getElem?_map, hw]
  rfl

end Sys2Proof.Proofs
end

section
/-! ENCODE as a function of its arguments (45 R143 to R148): its checks, its characters and its length. -/

namespace Sys2Proof.Proofs

open Sys2Proof.Machine Sys2Proof.Laws

/-! ### Pieces of a list -/

/-- Where pieces of one length are joined, entry `n * f + k` is entry `k` of piece `f`. -/
theorem getElem?_flatMap_of_length {α β : Type} {F : α → List β} {n : Nat} (hF : ∀ a, (F a).length = n)
    (l : List α) (f : Nat) {k : Nat} (hk : k < n) :
    (l.flatMap F)[n * f + k]? = l[f]?.bind (fun a => (F a)[k]?) := by
  induction l generalizing f with
  | nil => rfl
  | cons a l ih =>
    have ha := hF a
    rw [List.flatMap_cons]
    cases f with
    | zero =>
      rw [Nat.mul_zero, Nat.zero_add, List.getElem?_append_left (by omega)]
      rfl
    | succ f =>
      have hshift : n * (f + 1) + k = (F a).length + (n * f + k) := by rw [ha]; ring
      rw [hshift, List.getElem?_append_right (by omega), Nat.add_sub_cancel_left, ih, List.getElem?_cons_succ]

/-- Frame f of a buffer is made of bytes 4f to 4f+3 (45 R146). -/
theorem framesOf_getElem? {l : List Byte} (f : Nat) (h : 4 * f + 3 < l.length) :
    (framesOf l)[f]? = some (frameOfBytes (l.getD (4 * f) 0#8) (l.getD (4 * f + 1) 0#8) (l.getD (4 * f + 2) 0#8)
      (l.getD (4 * f + 3) 0#8)) := by
  induction l using framesOf.induct generalizing f with
  | case1 b0 b1 b2 b3 rest ih =>
    cases f with
    | zero => rfl
    | succ f =>
      simp only [List.length_cons] at h
      exact ih f (by omega)
  | case2 l hl =>
    have hnil : framesOf l = [] := by rw [framesOf]; exact hl
    have hlen : 0 = l.length / 4 := by rw [← framesOf_length, hnil, List.length_nil]
    omega

/-- Character k of the group of frame f is character 5f + k of the output (45 R146). -/
theorem encodedChars_getElem? (vs : List Frame) (f : Nat) {k : Nat} (hk : k < 5) :
    (encodedChars vs)[5 * f + k]? = vs[f]?.map (fun v => alphaRom.get (encDigit v ⟨k, hk⟩)) := by
  have hchar : ∀ v, (groupChars (encFrame alphaRom v))[k]? = some (alphaRom.get (encDigit v ⟨k, hk⟩)) := by
    intro v
    rw [groupChars_encFrame]
    interval_cases k <;> rfl
  rw [encodedChars, getElem?_flatMap_of_length (fun _ => groupChars_length _) vs f hk]
  simp only [hchar]
  cases vs[f]? <;> rfl

/-- Every character of the output is an alphabet code (45 R148). -/
theorem alpha_of_mem_encodedChars {vs : List Frame} {c : Byte} (hc : c ∈ encodedChars vs) :
    ∃ d, alphaRom.get d = c := by
  obtain ⟨v, -, hv⟩ := List.mem_flatMap.mp hc
  rw [groupChars_encFrame] at hv
  simp only [List.mem_cons, List.not_mem_nil, or_false] at hv
  rcases hv with rfl | rfl | rfl | rfl | rfl <;> exact ⟨_, rfl⟩

/-- The marker of a padding count is the alphabet code of the digit, `0x30 + p` (45 R147, R148). -/
theorem marker_of_pos {p : Nat} (h0 : 0 < p) (h3 : p ≤ 3) :
    marker p = [BitVec.ofNat 8 (0x30 + p)] ∧ alphaRom.get (Fin.ofNat 85 p) = BitVec.ofNat 8 (0x30 + p) := by
  interval_cases p <;> decide

/-! ### The checks and the value of ENCODE -/

/-- The data with its zero bytes (45 R145). -/
def padded (data : List Byte) : List Byte := data ++ List.replicate (padCount data.length) 0#8

/-- Padded data are whole frames (45 R145). -/
theorem padded_length (data : List Byte) :
    (padded data).length = data.length + padCount data.length ∧ (padded data).length % 4 = 0 := by
  obtain ⟨-, hmod, -⟩ := padCount_spec data.length
  have hlen : (padded data).length = data.length + padCount data.length := by
    rw [padded, List.length_append, List.length_replicate]
  exact ⟨hlen, hlen ▸ hmod⟩

/-- ENCODE's plan when its checks pass (45 R143 to R146). -/
theorem encodePlan_of_pass {data : List Byte} {autoPad : Bool} (h : data.length % 4 = 0 ∨ autoPad = true) :
    encodePlan data autoPad = .go (padCount data.length) (framesOf (padded data)) := by
  cases hp : encodePlan data autoPad with
  | fail e =>
    obtain ⟨-, hlen, hpad⟩ := encodePlan_fail.mp hp
    rcases h with h | h
    · exact absurd h hlen
    · exact absurd (hpad.symm.trans h) Bool.false_ne_true
  | go p vs =>
    obtain ⟨rfl, rfl, -⟩ := encodePlan_go hp
    rfl

/-- When ENCODE returns a string, and which (45 R142 to R147). -/
theorem seqEncode_eq_value_iff {data : List Byte} {autoPad : Bool} {out : List Byte} :
    seqEncode data autoPad = .value out ↔ (data.length % 4 = 0 ∨ autoPad = true) ∧
      out = encodedChars (framesOf (padded data)) ++ marker (padCount data.length) := by
  constructor
  · intro h
    cases hp : encodePlan data autoPad with
    | fail e => simp [seqEncode, hp] at h
    | go p vs =>
      obtain ⟨rfl, rfl, hpass⟩ := encodePlan_go hp
      simp only [seqEncode, hp, SeqResult.value.injEq] at h
      exact ⟨hpass, h.symm⟩
  · rintro ⟨hpass, rfl⟩
    simp only [seqEncode, encodePlan_of_pass hpass]

/-- Settles O43: `encodePlan_fail` for the error, `seqEncode_eq_value_iff` for every other input. -/
theorem encodeChecks : Obligations.EncodeChecks := by
  refine ⟨fun _ _ => ⟨rfl, rfl⟩, fun strict data h => ?_, fun data autoPad h =>
    ⟨_, seqEncode_eq_value_iff.mpr ⟨h, rfl⟩⟩⟩
  exact value_start_of_plan_fail (c := .encode data false) strict
    (planMap_eq_fail.mpr (encodePlan_fail.mpr ⟨rfl, h, rfl⟩))

/-- Settles O44: `seqEncode_eq_value_iff`, read at each character of each frame and at the marker. -/
theorem encodeOutput : Obligations.EncodeOutput := by
  intro data autoPad out h p work
  obtain ⟨-, rfl⟩ := seqEncode_eq_value_iff.mp h
  obtain ⟨hp3, -, hp : padCount data.length = p⟩ := padCount_spec data.length
  obtain ⟨hlen, hmod⟩ := padded_length data
  have hwork : padded data = work := by rw [padded, hp]
  rw [hp] at hp3 hlen ⊢
  rw [hwork] at hlen hmod ⊢
  refine ⟨⟨hp3, hmod⟩, ?_, fun f k hk hf => ?_, fun h0 => ?_, fun c hc => ?_⟩
  · rw [List.length_append, encodedChars_length, framesOf_length, marker_length, hlen]
  · have hchars : 5 * f + k < (encodedChars (framesOf work)).length := by
      rw [encodedChars_length, framesOf_length]
      omega
    rw [List.getElem?_append_left hchars, encodedChars_getElem? _ _ hk, framesOf_getElem? f (by omega),
      ← frameOfBytes_toNat]
    rfl
  · obtain ⟨hmarker, hcode⟩ := marker_of_pos h0 hp3
    rw [hmarker, List.getLast?_concat]
    exact ⟨rfl, hcode⟩
  · rcases List.mem_append.mp hc with hc | hc
    · exact alpha_of_mem_encodedChars hc
    · have h0 : 0 < p := by
        by_contra h0
        rw [marker, if_neg h0] at hc
        exact List.not_mem_nil hc
      obtain ⟨hmarker, hcode⟩ := marker_of_pos h0 hp3
      rw [hmarker, List.mem_singleton] at hc
      exact ⟨_, hcode.trans hc.symm⟩

end Sys2Proof.Proofs
end

section
/-! DECODE as a function of its arguments (45 R150 to R156): its checks, its bytes and STRICT_DECODE. -/

namespace Sys2Proof.Proofs

open Sys2Proof.Machine Sys2Proof.Laws

/-! ### The checks -/

/-- Whole groups pass with no padding (45 R150). -/
theorem decodePlan_of_groups {text : List Byte} (h : text.length % 5 = 0) :
    decodePlan text = .go 0 (groupsOf text) := by
  simp only [decodePlan, h, if_true]

/-- A length that is neither whole groups nor one more fails (45 R150). -/
theorem decodePlan_of_length {text : List Byte} (h : text.length % 5 ≠ 0) (h' : (text.length - 1) % 5 ≠ 0) :
    decodePlan text = .fail .eLen5 := by
  simp only [decodePlan, h, h', if_false]

section

variable {front : List Byte} (hfront : front.length % 5 = 0)
include hfront

/-- A marker after whole groups is no part of a group (45 R151, R153). -/
theorem groupsOf_concat (m : Byte) : groupsOf (front ++ [m]) = groupsOf front := by
  rw [groupsOf_append _ _ hfront, groupsOf_short (l := [m]) (by simp), List.append_nil]

/-- A character after whole groups that is no marker fails (45 R151). -/
theorem decodePlan_concat_of_not_marker {m : Byte} (hm : markerCount m = none) :
    decodePlan (front ++ [m]) = .fail .ePadChr := by
  have hmod : (front.length + 1) % 5 ≠ 0 := by omega
  simp [decodePlan, hmod, hfront, hm]

/-- A marker after whole groups fails when it counts more bytes than they hold (45 R152). -/
theorem decodePlan_concat_of_marker {m : Byte} {p : Nat} (hm : markerCount m = some p) :
    decodePlan (front ++ [m]) =
      if p > 4 * (front.length / 5) then .fail .ePadUnder else .go p (groupsOf front) := by
  have hmod : (front.length + 1) % 5 ≠ 0 := by omega
  rw [← groupsOf_concat hfront m]
  simp [decodePlan, hmod, hfront, hm]

/-- After a group, a marker says how many bytes to drop (45 R151, R152). -/
theorem decodePlan_concat_of_ne_nil {m : Byte} {p : Nat} (hm : markerCount m = some p) (hne : front ≠ []) :
    decodePlan (front ++ [m]) = .go p (groupsOf front) := by
  obtain ⟨-, -, -, hp⟩ := markerCount_eq_some hm
  have hpos := List.length_pos_iff.mpr hne
  rw [decodePlan_concat_of_marker hfront hm, if_neg (by omega)]

end

/-- A call of DECODE whose checks fail has their error, and returns it as it starts (45 R157). -/
theorem seqDecode_of_fail {text : List Byte} {e : SeqError} (strict : Bool) (h : decodePlan text = .fail e) :
    seqDecode strict text = .seqError e ∧ (Call.decode text).start strict = .returned (.seqError e) :=
  value_start_of_plan_fail (c := .decode text) strict (planMap_eq_fail.mpr h)

/-- The three markers and their counts (45 R151). -/
theorem markerCount_of_marker {m : Byte} (h : m = 0x31#8 ∨ m = 0x32#8 ∨ m = 0x33#8) :
    markerCount m = some (m.toNat - 0x30) := if_pos h

/-- Settles O45: one lemma for each way the checks of `decodePlan` can go. -/
theorem decodeChecks : Obligations.DecodeChecks := by
  intro strict text
  refine ⟨fun h h' => seqDecode_of_fail strict (decodePlan_of_length h h'), ?_, decodePlan_of_groups, by omega⟩
  rintro front m rfl hfront
  refine ⟨fun hm => seqDecode_of_fail strict
    (decodePlan_concat_of_not_marker hfront (markerCount_eq_none.mpr hm)), fun hm => ⟨?_, fun hne => ?_⟩⟩
  · rintro rfl
    obtain ⟨-, -, hpos, -⟩ := markerCount_eq_some (markerCount_of_marker hm)
    refine seqDecode_of_fail strict ?_
    rw [decodePlan_concat_of_marker hfront (markerCount_of_marker hm)]
    exact if_pos hpos
  · have hplan := decodePlan_concat_of_ne_nil hfront (markerCount_of_marker hm) hne
    obtain ⟨hgroups, hle, -⟩ := decodePlan_go hplan
    exact ⟨hplan, hle⟩

/-! ### The value of DECODE -/

/-- DECODE once its checks pass (45 R153 to R155). -/
theorem seqDecode_of_go {text : List Byte} {p : Nat} {groups : List Word40} (strict : Bool)
    (h : decodePlan text = .go p groups) :
    seqDecode strict text = if anyInvchr groups && strict then .seqError .eBadChr
      else .value ((decodedBytes groups).take (4 * groups.length - p)) := by
  simp only [seqDecode, h]

/-- When DECODE returns bytes, its checks passed, and the bytes are those of the groups (45 R153 to R155). -/
theorem plan_of_seqDecode_value {strict : Bool} {text out : List Byte} (h : seqDecode strict text = .value out) :
    ∃ p groups, decodePlan text = .go p groups ∧ out = (decodedBytes groups).take (4 * groups.length - p) := by
  cases hp : decodePlan text with
  | fail e =>
    obtain ⟨he, -⟩ := seqDecode_of_fail strict hp
    simp [he] at h
  | go p groups =>
    rw [seqDecode_of_go strict hp] at h
    split at h
    · cases h
    · exact ⟨p, groups, rfl, (SeqResult.value.inj h).symm⟩

/-- The padding count of a text that passes the checks (45 R150, R151). -/
theorem pad_of_decodePlan {text : List Byte} {p : Nat} {groups : List Word40} (h : decodePlan text = .go p groups) :
    p = if text.length % 5 = 0 then 0 else (text.getLast?.getD 0#8).toNat - 0x30 := by
  obtain ⟨-, -, -, ⟨h0, rfl⟩ | ⟨h1, hm⟩⟩ := decodePlan_go h
  · rw [if_pos h0]
  · obtain ⟨-, hp, -, -⟩ := markerCount_eq_some hm
    rw [if_neg (by omega), List.getLast?_eq_getElem?]
    exact hp

/-- A text that does not begin with a group has none. -/
theorem groupsOf_of_no_group {l : List Byte}
    (hl : ∀ c0 c1 c2 c3 c4 rest, l = c0 :: c1 :: c2 :: c3 :: c4 :: rest → False) :
    groupsOf l = [] ∧ l.length / 5 = 0 := by
  have hnil : groupsOf l = [] := by rw [groupsOf]; exact hl
  exact ⟨hnil, by rw [← groupsOf_length, hnil, List.length_nil]⟩

/-- Group g of a text is made of characters 5g to 5g+4 (45 R153). -/
theorem groupsOf_getElem? {l : List Byte} (g : Nat) (h : 5 * g + 4 < l.length) :
    (groupsOf l)[g]? = some (packGroup (l.getD (5 * g) 0#8) (l.getD (5 * g + 1) 0#8) (l.getD (5 * g + 2) 0#8)
      (l.getD (5 * g + 3) 0#8) (l.getD (5 * g + 4) 0#8)) := by
  induction l using groupsOf.induct generalizing g with
  | case1 c0 c1 c2 c3 c4 rest ih =>
    cases g with
    | zero => rfl
    | succ g =>
      simp only [List.length_cons] at h
      exact ih g (by omega)
  | case2 l hl =>
    obtain ⟨-, hlen⟩ := groupsOf_of_no_group hl
    omega

/-- Byte b of a frame in byte order (20 R49). -/
theorem bytesOfFrame_getElem? (v : Frame) {b : Nat} (hb : b < 4) :
    (bytesOfFrame v)[b]? = some (BitVec.ofNat 8 (v.toNat / 2 ^ (8 * (3 - b)))) := by
  have hfield : (bytesOfFrame v)[b]? = some (v.extractLsb' (8 * (3 - b)) 8) := by interval_cases b <;> rfl
  rw [hfield, Option.some_inj, field_eq_iff, BitVec.toNat_ofNat]

/-- Byte b of the frame of group g is byte 4g + b of the output (45 R153). -/
theorem decodedBytes_getElem? (groups : List Word40) (g : Nat) {b : Nat} (hb : b < 4) :
    (decodedBytes groups)[4 * g + b]? =
      groups[g]?.map (fun w => BitVec.ofNat 8 ((decFrame w).toNat / 2 ^ (8 * (3 - b)))) := by
  rw [decodedBytes, getElem?_flatMap_of_length (fun _ => bytesOfFrame_length _) groups g hb]
  simp only [bytesOfFrame_getElem? _ hb]
  cases groups[g]? <;> rfl

/-- DEC32's value of a packed group, mod 2^32 (41 R100). -/
theorem decFrame_packGroup_toNat (c0 c1 c2 c3 c4 : Byte) :
    (decFrame (packGroup c0 c1 c2 c3 c4)).toNat = groupValue rlutRom c0 c1 c2 c3 c4 % 2 ^ 32 := by
  obtain ⟨h0, h1, h2, h3, h4⟩ := charAt_packGroup c0 c1 c2 c3 c4
  rw [decFrame, h0, h1, h2, h3, h4, BitVec.toNat_ofNat]

/-- The rule's example of dropped bytes that are not zero (45 R156). -/
theorem seqDecode_nSc03 (strict : Bool) :
    seqDecode strict [0x25, 0x6E, 0x53, 0x63, 0x30, 0x33] = .value [0xFF] := by
  cases strict <;> decide +kernel

/-- Settles O46: the bytes by `decodedBytes_getElem?`, of which `take` leaves the first. -/
theorem decodeOutput : Obligations.DecodeOutput := by
  refine ⟨seqDecode_nSc03, ?_⟩
  intro strict text out h p
  obtain ⟨q, groups, hplan, rfl⟩ := plan_of_seqDecode_value h
  obtain rfl : q = p := pad_of_decodePlan hplan
  obtain ⟨rfl, hle, -⟩ := decodePlan_go hplan
  have hlen : ((decodedBytes (groupsOf text)).take (4 * (groupsOf text).length - p)).length =
      4 * (text.length / 5) - p := by
    rw [List.length_take, decodedBytes_length, groupsOf_length, min_eq_left (Nat.sub_le _ _)]
  rw [groupsOf_length] at hle
  refine ⟨hlen, hle, fun g b hb hlt => ?_⟩
  rw [hlen] at hlt
  rw [List.getElem?_take_of_lt (by rw [groupsOf_length]; exact hlt), decodedBytes_getElem? _ _ hb,
    groupsOf_getElem? g (by omega), Option.map_some, decFrame_packGroup_toNat]

/-! ### STRICT_DECODE -/

/-- The groups of a text hold its characters, less a rest of fewer than five (45 R153). -/
theorem flatMap_groupChars_groupsOf (text : List Byte) :
    (groupsOf text).flatMap groupChars = text.take (5 * (text.length / 5)) := by
  induction text using groupsOf.induct with
  | case1 c0 c1 c2 c3 c4 rest ih =>
    have hlen : 5 * ((rest.length + 5) / 5) = 5 * (rest.length / 5) + 5 := by omega
    rw [groupsOf, List.flatMap_cons, groupChars_packGroup, ih]
    simp [hlen]
  | case2 l hl =>
    obtain ⟨hnil, hlen⟩ := groupsOf_of_no_group hl
    rw [hnil, hlen]
    rfl

/-- `bad` is set when some character of a group is no alphabet code (45 R149, R154). -/
theorem anyInvchr_groupsOf_iff (text : List Byte) : anyInvchr (groupsOf text) = true ↔
    ∃ (n : Nat) (c : Byte), n < 5 * (text.length / 5) ∧ text[n]? = some c ∧ ∀ d, alphaRom.get d ≠ c := by
  have hany : anyInvchr (groupsOf text) = invchrOf rlutRom (text.take (5 * (text.length / 5))) := by
    rw [← flatMap_groupChars_groupsOf, invchrOf, List.any_flatMap]
    rfl
  rw [hany, invchrOf_iff]
  constructor
  · rintro ⟨c, hc, hd⟩
    obtain ⟨n, hn⟩ := List.mem_iff_getElem?.mp hc
    rw [List.getElem?_take] at hn
    split at hn
    · exact ⟨n, c, ‹_›, hn, hd⟩
    · cases hn
  · rintro ⟨n, c, hlt, hn, hd⟩
    exact ⟨c, List.mem_iff_getElem?.mpr ⟨n, by rw [List.getElem?_take_of_lt hlt, hn]⟩, hd⟩

/-- Settles O47: `seqDecode_of_go` with each flag, and `anyInvchr_groupsOf_iff`. -/
theorem strictDecode : Obligations.StrictDecode := by
  intro text p groups hplan
  have hfalse := seqDecode_of_go false hplan
  have htrue := seqDecode_of_go true hplan
  rw [Bool.and_false, if_neg Bool.false_ne_true] at hfalse
  rw [Bool.and_true] at htrue
  obtain ⟨rfl, -⟩ := decodePlan_go hplan
  refine ⟨hfalse, ?_, ?_⟩
  · rw [hfalse, htrue]
    split
    · exact .inr rfl
    · exact .inl rfl
  · rw [← anyInvchr_groupsOf_iff, htrue]
    simp

end Sys2Proof.Proofs
end

section
/-! ENCODE and DECODE against each other (45 R159, R160). -/

namespace Sys2Proof.Proofs

open Sys2Proof.Machine Sys2Proof.Laws

/-- The characters of frames and the marker of their padding pass DECODE's checks, and their groups are those of the
frames (45 R150 to R153). -/
theorem decodePlan_encoded (vs : List Frame) {p : Nat} (h3 : p ≤ 3) (hne : 0 < p → vs ≠ []) :
    decodePlan (encodedChars vs ++ marker p) = .go p (vs.map (encFrame alphaRom)) := by
  have hlen : (encodedChars vs).length % 5 = 0 := by
    rw [encodedChars_length]
    exact Nat.mul_mod_right 5 _
  have hgroups : groupsOf (encodedChars vs) = vs.map (encFrame alphaRom) := by
    simpa using groupsOf_encodedChars vs (rest := []) (by decide)
  rw [← hgroups]
  rcases Nat.eq_zero_or_pos p with rfl | h0
  · rw [marker_zero, List.append_nil]
    exact decodePlan_of_groups hlen
  · obtain ⟨hmarker, hcount⟩ := markerCount_marker h0 h3
    rw [hmarker]
    refine decodePlan_concat_of_ne_nil hlen hcount (List.ne_nil_of_length_pos ?_)
    rw [encodedChars_length]
    have := List.length_pos_iff.mpr (hne h0)
    omega

/-- DECODE of what ENCODE returned is the data, as a group that a frame encodes to has that frame as its value and no
INVCHR (45 R159, 41 R104). -/
theorem seqDecode_of_seqEncode (strict : Bool) {data text : List Byte} {autoPad : Bool}
    (h : seqEncode data autoPad = .value text) : seqDecode strict text = .value data := by
  obtain ⟨-, rfl⟩ := seqEncode_eq_value_iff.mp h
  obtain ⟨hp3, -, -⟩ := padCount_spec data.length
  obtain ⟨hlen, hmod⟩ := padded_length data
  have hframes := framesOf_length (padded data)
  have hplan := decodePlan_encoded (framesOf (padded data)) hp3
    (fun h0 => List.ne_nil_of_length_pos (by omega))
  obtain ⟨hbytes, hinv⟩ := decoded_of_encoded (framesOf (padded data))
  have htake : (padded data).take (4 * (framesOf (padded data)).length - padCount data.length) = data :=
    List.take_left' (by omega)
  rw [seqDecode_of_go strict hplan, hinv, Bool.false_and, if_neg Bool.false_ne_true, hbytes,
    flatMap_bytes_framesOf _ hmod, List.length_map, htake]

/-- Settles O49: ENCODE returns a text by `encodeChecks`, and `seqDecode_of_seqEncode` takes it back. -/
theorem sequencerRoundTrip : Obligations.SequencerRoundTrip := by
  obtain ⟨-, -, hvalue⟩ := encodeChecks
  refine ⟨fun strict b hb => ?_, fun strict b => ?_, fun strict autoPad => ⟨rfl, rfl⟩⟩
  · obtain ⟨text, h⟩ := hvalue b false (.inl hb)
    exact ⟨text, h, seqDecode_of_seqEncode strict h⟩
  · obtain ⟨text, h⟩ := hvalue b true (.inr rfl)
    exact ⟨text, h, seqDecode_of_seqEncode strict h⟩

/-- Settles O50: `seqDecode_nSc03`, and ENCODE's values by their characters and marker. -/
theorem decodeThenEncodeMayDiffer : Obligations.DecodeThenEncodeMayDiffer :=
  ⟨seqDecode_nSc03 false, seqEncode_eq_value_iff.mpr ⟨.inr rfl, by decide +kernel⟩,
    seqEncode_eq_value_iff.mpr ⟨.inl rfl, by decide +kernel⟩⟩

end Sys2Proof.Proofs
end

section
/-! Exceptions (60 R170 to R174, R183): the reserved command, that nothing stops the block, the conditions of one
STATUS, and the order of two hosts. -/

namespace Sys2Proof.Proofs

open Sys2Proof.Machine Sys2Proof.Laws

/-! ### The reserved command -/

/-- A reserved word changes STATUS only, to VALID and ILLEGAL (60 R171). -/
theorem runWord_of_reserved {w : Word48} {why : Reserved} (hw : decode w = .reserved why) (s : State) :
    runWord w s = .next { s with status := 0x03#8 } := by
  rw [runWord_eq_afterWord, afterWord_of_reserved hw, reservedCommand_eq]

/-- Settles O30: CMD alone makes the word reserved (`decode_reserved`), so its operand does not matter. -/
theorem reservedCommand : Obligations.ReservedCommand := by
  intro c o s h1 h2 h3 h4
  rw [← cmd_append c o] at h1 h2 h3 h4
  obtain ⟨why, hw⟩ := decode_reserved _ h1 h2 h3 h4
  exact ⟨⟨why, hw⟩, runWord_of_reserved hw s⟩

/-! ### Nothing stops -/

/-- Every run goes on, because every step does (60 R170). -/
theorem safeRun (n : Nat) (s : State) : SafeRun n s := by
  induction n generalizing s with
  | zero => exact ⟨s, run_zero s⟩
  | succ n ih =>
    obtain ⟨t, ht⟩ := exists_step s
    rw [SafeRun, run_succ ht]
    exact ih t

/-- A word writes STATUS and does not read it (10 R26, 60 R170). -/
theorem afterWord_set_status (w : Word48) (s : State) (st : Byte) :
    afterWord w { s with status := st } = afterWord w s := by
  cases hw : decode w with
  | command i => rw [afterWord_of_command hw, afterWord_of_command hw]; rfl
  | reserved why => rw [afterWord_of_reserved hw, afterWord_of_reserved hw]; rfl

/-- After any word, legal or reserved, VALID is 1 (60 R170). -/
theorem afterWord_status_valid (w : Word48) (s : State) : (afterWord w s).status.getLsbD 0 = true := by
  obtain ⟨c, hc⟩ := afterWord_status w s
  rw [hc, statusWord_valid]

/-- Settles O31: `exists_step` and `safeRun` for steps, `afterWord` for words. -/
theorem nothingStops : Obligations.NothingStops := by
  refine ⟨exists_step, safeRun, fun w s => ⟨_, runWord_eq_afterWord w s, afterWord_status_valid w s⟩, ?_⟩
  intro w s st
  rw [runWord_eq_afterWord, runWord_eq_afterWord, afterWord_set_status]

/-! ### Conditions together -/

/-- STATUS after a word: that of the command's own conditions, or 0x03 (10 R26, 60 R171). -/
theorem afterWord_status_cases (w : Word48) (s : State) :
    (∃ i, decode w = .command i ∧ (afterWord w s).status = statusWord (answerConditions i s.rlut)) ∨
      (afterWord w s).status = 0x03#8 := by
  cases hw : decode w with
  | command i => exact .inl ⟨i, rfl, by rw [afterWord_of_command hw, State.complete_status]⟩
  | reserved why => exact .inr (by rw [afterWord_of_reserved hw, State.reservedCommand_status])

/-- ILLEGAL is the reserved command's, and stands alone (60 R171, R174). -/
theorem status_of_illegal {w : Word48} {s : State} (h : (afterWord w s).status.getLsbD 1 = true) :
    (afterWord w s).status = 0x03#8 := by
  rcases afterWord_status_cases w s with ⟨i, -, hst⟩ | hst
  · rw [hst, statusWord_illegal, answerConditions_illegal] at h
    cases h
  · exact hst

/-- RANGE is ALPHA_RD's, and stands alone (42 R120, 60 R174). -/
theorem status_of_range {w : Word48} {s : State} (h : (afterWord w s).status.getLsbD 4 = true) :
    (afterWord w s).status = 0x11#8 ∧ ∃ g x, decode w = .command (.alphaRd g x) := by
  rcases afterWord_status_cases w s with ⟨i, hw, hst⟩ | hst
  · rw [hst, statusWord_range] at h
    cases i with
    | alphaRd g x =>
      have hr : (!decide (x.toNat < 85)) = true := h
      rw [hst, answerConditions, hr]
      exact ⟨statusWord_range_only, g, x, hw⟩
    | enc32 _ _ | dec32 _ _ _ _ _ | rlutRd _ _ => cases h
  · rw [hst] at h
    exact absurd h (by decide)

/-- INVCHR is DEC32's or RLUT_RD's (60 R173, R174). -/
theorem command_of_invchr {w : Word48} {s : State} (h : (afterWord w s).status.getLsbD 2 = true) :
    (∃ c0 c1 c2 c3 c4, decode w = .command (.dec32 c0 c1 c2 c3 c4)) ∨
      ∃ g c, decode w = .command (.rlutRd g c) := by
  rcases afterWord_status_cases w s with ⟨i, hw, hst⟩ | hst
  · rw [hst, statusWord_invchr] at h
    cases i with
    | dec32 c0 c1 c2 c3 c4 => exact .inl ⟨c0, c1, c2, c3, c4, hw⟩
    | rlutRd g c => exact .inr ⟨g, c, hw⟩
    | enc32 _ _ | alphaRd _ _ => cases h
  · rw [hst] at h
    exact absurd h (by decide)

/-- "#####" with bit 7 of its first character set has the digits of "#####", so OVF, and a character that is no
alphabet code, so INVCHR (20 R47, 41 R102). -/
theorem conditions_of_aliased_group :
    statusWord (groupConditions rlutRom 0xA3 0x23 0x23 0x23 0x23) = 0x0D#8 := by decide +kernel

/-- Settles O35: each condition by the command that can report it; INVCHR and OVF meet in the aliased "#####". -/
theorem conditionsTogether : Obligations.ConditionsTogether := by
  refine ⟨fun w s t ht h => ?_, fun w s t ht h => ?_, fun w s t ht h => ?_, fun s hs => ?_⟩
  · obtain rfl := eq_afterWord ht
    exact status_of_illegal h
  · obtain rfl := eq_afterWord ht
    exact status_of_range h
  · obtain rfl := eq_afterWord ht
    exact command_of_invchr h
  · obtain ⟨-, hr⟩ := hs
    refine ⟨encode (.dec32 0xA3 0x23 0x23 0x23 0x23), _, runWord_eq_afterWord _ s, ?_⟩
    rw [afterWord_of_command (decode_encode_dec32 ..), State.complete_status, hr]
    exact conditions_of_aliased_group

/-! ### Two hosts -/

/-- Two pending issues of legal words: each issuer gets its word's answer from the ROMs, which the first word leaves
alone for the second, and the registers hold the later answer (20 R56, 45 R140). -/
theorem run_two_issues {s : State} {h h' : HostId} {w w' : Word48} {i i' : Instr} {rest : List HostAction}
    (hp : s.port = .issue h w :: .issue h' w' :: rest) (hw : decode w = .command i)
    (hw' : decode w' = .command i') :
    ∃ t, Sys2Proof.core.run 2 s = .next t ∧
      t.delivered =
        .response h' (answerResult i' s.alpha s.rlut) (statusWord (answerConditions i' s.rlut)) ::
          .response h (answerResult i s.alpha s.rlut) (statusWord (answerConditions i s.rlut)) :: s.delivered ∧
      t.result = answerResult i' s.alpha s.rlut ∧ t.status = statusWord (answerConditions i' s.rlut) := by
  have hsecond := step_issue (s := (afterWord w { s with port := .issue h' w' :: rest }).respond h)
    (by rw [State.respond_port, afterWord_port])
  refine ⟨_, (run_succ (step_issue hp) 1).trans (run_succ hsecond 0), ?_, ?_, ?_⟩ <;>
    simp [afterWord_of_command hw, afterWord_of_command hw']

/-- Settles O40: `run_two_issues` in either order. -/
theorem orderOfHostsDoesNotMatter : Obligations.OrderOfHostsDoesNotMatter := by
  intro s h h' w w' i i' rest hw hw'
  obtain ⟨t, ht, hdel, hres, hst⟩ :=
    run_two_issues (s := { s with port := .issue h w :: .issue h' w' :: rest }) rfl hw hw'
  obtain ⟨t', ht', hdel', hres', hst'⟩ :=
    run_two_issues (s := { s with port := .issue h' w' :: .issue h w :: rest }) rfl hw' hw
  exact ⟨t, t', _, _, _, _, ht, ht', hdel, hdel', hres, hst, hres', hst'⟩

end Sys2Proof.Proofs
end

section
/-! The errors of the host sequencer (60 R172): which checks fail, and when the groups of a text are bad. -/

namespace Sys2Proof.Proofs

open Sys2Proof.Machine Sys2Proof.Laws

/-- A text is whole groups, whole groups and one more character, or neither (45 R150). -/
theorem text_cases (text : List Byte) : text.length % 5 = 0 ∨
    (∃ front m, text = front ++ [m] ∧ front.length % 5 = 0) ∨
    (text.length % 5 ≠ 0 ∧ (text.length - 1) % 5 ≠ 0) := by
  rcases List.eq_nil_or_concat text with rfl | ⟨front, m, rfl⟩
  · exact .inl rfl
  · rw [List.concat_eq_append, List.length_append, List.length_singleton, Nat.add_sub_cancel]
    by_cases hfront : front.length % 5 = 0
    · exact .inr (.inl ⟨front, m, rfl, hfront⟩)
    · by_cases htext : (front.length + 1) % 5 = 0
      · exact .inl htext
      · exact .inr (.inr ⟨htext, hfront⟩)

/-- A marker alone counts bytes that no group holds (45 R152). -/
theorem decodePlan_of_marker_alone {m : Byte} (hm : m = 0x31#8 ∨ m = 0x32#8 ∨ m = 0x33#8) :
    decodePlan [m] = .fail .ePadUnder := by
  obtain ⟨-, -, hpos, -⟩ := markerCount_eq_some (markerCount_of_marker hm)
  exact (decodePlan_concat_of_marker (front := []) rfl (markerCount_of_marker hm)).trans (if_pos hpos)

/-- When DECODE's checks fail, and with which error (45 R150 to R152). -/
theorem decodePlan_fail {text : List Byte} {e : SeqError} : decodePlan text = .fail e ↔
    (e = .eLen5 ∧ text.length % 5 ≠ 0 ∧ (text.length - 1) % 5 ≠ 0) ∨
    (e = .ePadChr ∧ text.length % 5 = 1 ∧
      ∃ m, text.getLast? = some m ∧ m ≠ 0x31#8 ∧ m ≠ 0x32#8 ∧ m ≠ 0x33#8) ∨
    (e = .ePadUnder ∧ (text = [0x31#8] ∨ text = [0x32#8] ∨ text = [0x33#8])) := by
  constructor
  · intro h
    rcases text_cases text with hgroups | ⟨front, m, rfl, hfront⟩ | ⟨hlen, hlen'⟩
    · rw [decodePlan_of_groups hgroups] at h
      cases h
    · cases hm : markerCount m with
      | none =>
        rw [decodePlan_concat_of_not_marker hfront hm] at h
        cases h
        refine .inr (.inl ⟨rfl, ?_, m, List.getLast?_concat, markerCount_eq_none.mp hm⟩)
        rw [List.length_append, List.length_singleton]
        omega
      | some p =>
        obtain ⟨hmarker, -⟩ := markerCount_eq_some hm
        rcases eq_or_ne front [] with rfl | hne
        · rw [List.nil_append, decodePlan_of_marker_alone hmarker] at h
          cases h
          exact .inr (.inr ⟨rfl, by simpa using hmarker⟩)
        · rw [decodePlan_concat_of_ne_nil hfront hm hne] at h
          cases h
    · rw [decodePlan_of_length hlen hlen'] at h
      cases h
      exact .inl ⟨rfl, hlen, hlen'⟩
  · rintro (⟨rfl, hlen, hlen'⟩ | ⟨rfl, hlen, m, hlast, hm⟩ | ⟨rfl, htext⟩)
    · exact decodePlan_of_length hlen hlen'
    · obtain ⟨front, rfl⟩ := List.getLast?_eq_some_iff.mp hlast
      rw [List.length_append, List.length_singleton] at hlen
      exact decodePlan_concat_of_not_marker (by omega) (markerCount_eq_none.mpr hm)
    · rcases htext with rfl | rfl | rfl <;> exact decodePlan_of_marker_alone (by decide)

/-- DECODE fails by its checks, or with E_BADCHR once they pass (45 R150 to R154). -/
theorem seqDecode_eq_error_iff {strict : Bool} {text : List Byte} {e : SeqError} :
    seqDecode strict text = .seqError e ↔ decodePlan text = .fail e ∨
      (e = .eBadChr ∧ strict = true ∧ ∃ p groups, decodePlan text = .go p groups ∧ anyInvchr groups = true) := by
  cases hp : decodePlan text with
  | fail e' =>
    obtain ⟨he, -⟩ := seqDecode_of_fail strict hp
    simp [he]
  | go p groups =>
    rw [seqDecode_of_go strict hp]
    constructor
    · intro h
      split at h
      · rename_i hbad
        cases h
        obtain ⟨hbad, hstrict⟩ := (Bool.and_eq_true _ _).mp hbad
        exact .inr ⟨rfl, hstrict, p, groups, rfl, hbad⟩
      · cases h
    · rintro (h | ⟨rfl, rfl, p', groups', h, hbad⟩)
      · cases h
      · cases h
        rw [hbad]
        rfl

/-- A marker is an alphabet code (45 R147, R148). -/
theorem alpha_of_markerCount {m : Byte} {p : Nat} (hm : markerCount m = some p) : ∃ d, alphaRom.get d = m := by
  obtain ⟨hmarker, -⟩ := markerCount_eq_some hm
  rw [← isAlpha_iff]
  rcases hmarker with rfl | rfl | rfl <;> decide +kernel

/-- Once the checks pass, the groups are bad when any character of the text is no alphabet code: outside the groups
there is at most a marker, which is one (45 R151, R154). -/
theorem anyInvchr_iff_of_go {text : List Byte} {p : Nat} {groups : List Word40} (h : decodePlan text = .go p groups) :
    anyInvchr groups = true ↔ ∃ c ∈ text, ∀ d, alphaRom.get d ≠ c := by
  obtain ⟨rfl, -, -, hend⟩ := decodePlan_go h
  rw [anyInvchr_groupsOf_iff]
  constructor
  · rintro ⟨n, c, -, hn, hc⟩
    exact ⟨c, List.mem_of_getElem? hn, hc⟩
  · rintro ⟨c, hmem, hc⟩
    obtain ⟨n, hn⟩ := List.mem_iff_getElem?.mp hmem
    refine ⟨n, c, ?_, hn, hc⟩
    obtain ⟨hlt, -⟩ := List.getElem?_eq_some_iff.mp hn
    rcases hend with ⟨hlen, -⟩ | ⟨hlen, hmarker⟩
    · omega
    · have hne : n ≠ text.length - 1 := by
        rintro rfl
        rw [List.getD_eq_getElem?_getD, hn, Option.getD_some] at hmarker
        obtain ⟨d, hd⟩ := alpha_of_markerCount hmarker
        exact hc d hd
      omega

/-- ENCODE fails by its checks alone (45 R144). -/
theorem seqEncode_eq_error_iff {data : List Byte} {autoPad : Bool} {e : SeqError} :
    seqEncode data autoPad = .seqError e ↔ encodePlan data autoPad = .fail e := by
  cases hp : encodePlan data autoPad <;> simp [seqEncode, hp]

/-- DECODE's E_BADCHR comes from its characters, after the checks (45 R154). -/
theorem seqDecode_eBadChr_iff (strict : Bool) (text : List Byte) : seqDecode strict text = .seqError .eBadChr ↔
    strict = true ∧ (∃ p groups, decodePlan text = .go p groups) ∧ ∃ c ∈ text, ∀ d, alphaRom.get d ≠ c := by
  rw [seqDecode_eq_error_iff]
  constructor
  · rintro (hfail | ⟨-, hstrict, p, groups, hplan, hbad⟩)
    · simp [decodePlan_fail] at hfail
    · exact ⟨hstrict, ⟨p, groups, hplan⟩, (anyInvchr_iff_of_go hplan).mp hbad⟩
  · rintro ⟨hstrict, ⟨p, groups, hplan⟩, hbad⟩
    exact .inr ⟨rfl, hstrict, p, groups, hplan, (anyInvchr_iff_of_go hplan).mpr hbad⟩

/-- Settles O48: `encodePlan_fail` for ENCODE; for DECODE `decodePlan_fail`, and `seqDecode_eBadChr_iff` after it. -/
theorem sequencerErrors : Obligations.SequencerErrors := by
  refine ⟨fun _ => rfl, rfl, fun _ _ _ => seqEncode_eq_error_iff.trans encodePlan_fail, fun strict text =>
    ⟨?_, ?_, ?_, ?_, seqDecode_eBadChr_iff strict text⟩⟩ <;>
    simp [seqDecode_eq_error_iff, decodePlan_fail]

end Sys2Proof.Proofs
end

section
/-! How many commands a call has to issue, and which: one for each frame or group (45 R141, 70 R196). -/

namespace Sys2Proof.Proofs

open Sys2Proof.Machine Sys2Proof.Laws

/-- ENCODE's words are those of the padded data's frames. -/
theorem words_of_encode_plan {data : List Byte} {autoPad : Bool} {p : Nat} {ws : List Word48}
    (h : (Call.encode data autoPad).plan = .go p ws) :
    p = padCount data.length ∧ ws = (framesOf (padded data)).map enc32Word := by
  obtain ⟨frames, hp, rfl⟩ := planMap_eq_go.mp h
  obtain ⟨rfl, rfl, -⟩ := encodePlan_go hp
  exact ⟨rfl, rfl⟩

/-- DECODE's words are those of the text's groups. -/
theorem words_of_decode_plan {text : List Byte} {p : Nat} {ws : List Word48}
    (h : (Call.decode text).plan = .go p ws) : ws = (groupsOf text).map dec32Word := by
  obtain ⟨groups, hp, rfl⟩ := planMap_eq_go.mp h
  obtain ⟨rfl, -⟩ := decodePlan_go hp
  rfl

/-- Settles O51: the words are mapped from the frames and groups, which `framesOf_length` and `groupsOf_length` count. -/
theorem sequencerCommandCounts : Obligations.SequencerCommandCounts := by
  constructor
  · intro data autoPad p ws h
    obtain ⟨rfl, rfl⟩ := words_of_encode_plan h
    obtain ⟨hlen, -⟩ := padded_length data
    refine ⟨by rw [List.length_map, framesOf_length, hlen], List.forall_mem_map.mpr fun v _ => ?_⟩
    exact ⟨v, decode_encode_enc32 _ v⟩
  · intro text p ws h
    obtain rfl := words_of_decode_plan h
    refine ⟨by rw [List.length_map, groupsOf_length], List.forall_mem_map.mpr fun g _ => ?_⟩
    exact ⟨_, _, _, _, _, decode_encode_dec32 ..⟩

end Sys2Proof.Proofs
end
